-- ==== Sys2Proof/Word.lean ====
section
/-!
DEFINITION. The word types of the CHIP-8 core (spec/00_scope.md R8, R10, R11). All values are unsigned.
-/

namespace Sys2Proof

/-- An 8-bit value: a general register, a timer, a byte of memory, the immediate `kk`. -/
abbrev Byte := BitVec 8

/-- A 16-bit value: an instruction word, I, PC, a stack entry. -/
abbrev Word := BitVec 16

/-- The 12-bit immediate `nnn`. -/
abbrev Addr12 := BitVec 12

/-- The number of a general register, of a key or of a stack slot: 0..15 (R20, R32). -/
abbrev RegIdx := Fin 16

/-- The number of VF, the register that doubles as the flag (R22). -/
abbrev regF : RegIdx := 15

end Sys2Proof
end

