-- ==== Sys2Proof/Config.lean ====
section
/-!
DEFINITION. The parameters of spec/00_scope.md R9, and the free value behind the random byte of RND.
-/

namespace Sys2Proof

/-- DRAW_MODE: what a set sprite bit does to its pixel (R9, R105, D11). -/
inductive DrawMode where
  | forceOn
  | xor
  deriving DecidableEq, Repr

/-- VF_WRITE_ORDER: which value VF keeps when a flag-writing instruction has x = 0xF (R9, R122, D10). -/
inductive VfWriteOrder where
  | flagLast
  | resultLast
  deriving DecidableEq, Repr

/-- The parameters a run of the block is fixed to (R9). -/
structure Config where
  drawMode     : DrawMode
  vfWriteOrder : VfWriteOrder
  font         : Vector Byte 80
  deriving DecidableEq, Repr

/-- Glyphs 0 to 7 of the default FONT (R38). -/
def glyphsLow : List Byte :=
  [0xF0, 0x90, 0x90, 0x90, 0xF0] ++ [0x20, 0x60, 0x20, 0x20, 0x70] ++
  [0xF0, 0x10, 0xF0, 0x80, 0xF0] ++ [0xF0, 0x10, 0xF0, 0x10, 0xF0] ++
  [0x90, 0x90, 0xF0, 0x10, 0x10] ++ [0xF0, 0x80, 0xF0, 0x10, 0xF0] ++
  [0xF0, 0x80, 0xF0, 0x90, 0xF0] ++ [0xF0, 0x10, 0x20, 0x40, 0x40]

/-- Glyphs 8 to F of the default FONT (R38). -/
def glyphsHigh : List Byte :=
  [0xF0, 0x90, 0xF0, 0x90, 0xF0] ++ [0xF0, 0x90, 0xF0, 0x10, 0xF0] ++
  [0xF0, 0x90, 0xF0, 0x90, 0x90] ++ [0xE0, 0x90, 0xE0, 0x90, 0xE0] ++
  [0xF0, 0x80, 0x80, 0x80, 0xF0] ++ [0xE0, 0x90, 0x90, 0x90, 0xE0] ++
  [0xF0, 0x80, 0xF0, 0x80, 0xF0] ++ [0xF0, 0x80, 0xF0, 0x80, 0x80]

/-- The default FONT, 80 bytes, glyph d at offset 5*d, top row first (R37, R38; D9, general knowledge the spec adopts; log 5). -/
def defaultFont : Vector Byte 80 := ⟨(glyphsLow ++ glyphsHigh).toArray, rfl⟩

/-- The defaults of R9. -/
def Config.default : Config := ⟨.forceOn, .flagLast, defaultFont⟩

/-- FREE VALUE (log 2): the byte `rand` of the n-th step for which the host supplied none. It has no value that
anything can evaluate or prove: "a free draw under no law" (R45, D23). -/
opaque Config.freeByte : Nat → Byte

end Sys2Proof
end

