-- ==== Sys2Proof/Syntax.lean ====
section
/-!
DEFINITION. The 34 instruction forms of spec/30_encoding.md R79, one constructor a row, in the table's order, and
what decoding a word answers (R74).
-/

namespace Sys2Proof

/-- The instruction forms (R77, R79). `x`, `y` are register numbers, `kk` and `nnn` immediates, `n` a row count. A
field the form does not read (R76, R78) is no argument. -/
inductive Instr where
  | cls                                     -- CLS            0??0
  | ret                                     -- RET            0??E
  | jp      (nnn : Addr12)                  -- JP addr        1nnn
  | call    (nnn : Addr12)                  -- CALL addr      2nnn
  | seByte  (x : RegIdx) (kk : Byte)        -- SE Vx,byte     3xkk
  | sneByte (x : RegIdx) (kk : Byte)        -- SNE Vx,byte    4xkk
  | seReg   (x y : RegIdx)                  -- SE Vx,Vy       5xy?
  | ldByte  (x : RegIdx) (kk : Byte)        -- LD Vx,byte     6xkk
  | addByte (x : RegIdx) (kk : Byte)        -- ADD Vx,byte    7xkk
  | ldReg   (x y : RegIdx)                  -- LD Vx,Vy       8xy0
  | orReg   (x y : RegIdx)                  -- OR Vx,Vy       8xy1
  | andReg  (x y : RegIdx)                  -- AND Vx,Vy      8xy2
  | xorReg  (x y : RegIdx)                  -- XOR Vx,Vy      8xy3
  | addReg  (x y : RegIdx)                  -- ADD Vx,Vy      8xy4
  | subReg  (x y : RegIdx)                  -- SUB Vx,Vy      8xy5
  | shr     (x : RegIdx)                    -- SHR Vx         8x?6
  | subnReg (x y : RegIdx)                  -- SUBN Vx,Vy     8xy7
  | shl     (x : RegIdx)                    -- SHL Vx         8x?E
  | sneReg  (x y : RegIdx)                  -- SNE Vx,Vy      9xy?
  | ldI     (nnn : Addr12)                  -- LD I,addr      Annn
  | jpV0    (nnn : Addr12)                  -- JP V0,addr     Bnnn
  | rnd     (x : RegIdx) (kk : Byte)        -- RND Vx,byte    Cxkk
  | drw     (x y : RegIdx) (n : Nat)        -- DRW Vx,Vy,n    Dxyn
  | skp     (x : RegIdx)                    -- SKP Vx         Ex9E
  | sknp    (x : RegIdx)                    -- SKNP Vx        ExA1
  | ldVxDT  (x : RegIdx)                    -- LD Vx,DT       Fx07
  | ldVxK   (x : RegIdx)                    -- LD Vx,K        Fx0A
  | ldDTVx  (x : RegIdx)                    -- LD DT,Vx       Fx15
  | ldSTVx  (x : RegIdx)                    -- LD ST,Vx       Fx18
  | addI    (x : RegIdx)                    -- ADD I,Vx       Fx1E
  | ldF     (x : RegIdx)                    -- LD F,Vx        Fx29
  | ldB     (x : RegIdx)                    -- LD B,Vx        Fx33
  | ldMemVx (x : RegIdx)                    -- LD [I],Vx      Fx55
  | ldVxMem (x : RegIdx)                    -- LD Vx,[I]      Fx65
  deriving DecidableEq, Repr

/-- What decoding a word answers: one of the 34 forms with its fields, or `UnknownOpcode`, by name and with the word
(R74, R80). -/
inductive Decoded where
  | instr (i : Instr)
  | unknownOpcode (w : Word)
  deriving DecidableEq, Repr

end Sys2Proof
end

