-- ==== Sys2Proof/Decode.lean ====
section
/-!
DEFINITION. The fields of a word, the decoder of spec/30_encoding.md R75, the encoder of R83, the opcode map of R79,
and the decoder on bytes.
-/

namespace Sys2Proof

/-! ### Fields of a word (R10, R71) -/

def nib1 (w : Word) : BitVec 4 := w.extractLsb' 12 4
def nib2 (w : Word) : BitVec 4 := w.extractLsb' 8 4
def nib3 (w : Word) : BitVec 4 := w.extractLsb' 4 4
def nib4 (w : Word) : BitVec 4 := w.extractLsb' 0 4

/-- x = n2. -/
def fieldX (w : Word) : RegIdx := (nib2 w).toFin
/-- y = n3. -/
def fieldY (w : Word) : RegIdx := (nib3 w).toFin
/-- n = n4, a row count. -/
def fieldN (w : Word) : Nat := (nib4 w).toNat
/-- kk = w[7:0]. -/
def fieldKK (w : Word) : Byte := w.extractLsb' 0 8
/-- nnn = w[11:0]. -/
def fieldNNN (w : Word) : Addr12 := w.extractLsb' 0 12

/-! ### The decoder (R75), one function a value of n1 that has a sub-family -/

/-- n1 = 0x0: n4 selects, n2 and n3 are not examined (R76). -/
def decodeZero (w : Word) : Decoded :=
  match (nib4 w).toNat with
  | 0x0 => .instr .cls
  | 0xE => .instr .ret
  | _ => .unknownOpcode w

/-- n1 = 0x8: n4 selects. -/
def decodeAlu (w : Word) : Decoded :=
  match (nib4 w).toNat with
  | 0x0 => .instr (.ldReg (fieldX w) (fieldY w))
  | 0x1 => .instr (.orReg (fieldX w) (fieldY w))
  | 0x2 => .instr (.andReg (fieldX w) (fieldY w))
  | 0x3 => .instr (.xorReg (fieldX w) (fieldY w))
  | 0x4 => .instr (.addReg (fieldX w) (fieldY w))
  | 0x5 => .instr (.subReg (fieldX w) (fieldY w))
  | 0x6 => .instr (.shr (fieldX w))
  | 0x7 => .instr (.subnReg (fieldX w) (fieldY w))
  | 0xE => .instr (.shl (fieldX w))
  | _ => .unknownOpcode w

/-- n1 = 0xE: the low byte selects. -/
def decodeKeys (w : Word) : Decoded :=
  match (fieldKK w).toNat with
  | 0x9E => .instr (.skp (fieldX w))
  | 0xA1 => .instr (.sknp (fieldX w))
  | _ => .unknownOpcode w

/-- n1 = 0xF: the low byte selects. -/
def decodeMisc (w : Word) : Decoded :=
  match (fieldKK w).toNat with
  | 0x07 => .instr (.ldVxDT (fieldX w))
  | 0x0A => .instr (.ldVxK (fieldX w))
  | 0x15 => .instr (.ldDTVx (fieldX w))
  | 0x18 => .instr (.ldSTVx (fieldX w))
  | 0x1E => .instr (.addI (fieldX w))
  | 0x29 => .instr (.ldF (fieldX w))
  | 0x33 => .instr (.ldB (fieldX w))
  | 0x55 => .instr (.ldMemVx (fieldX w))
  | 0x65 => .instr (.ldVxMem (fieldX w))
  | _ => .unknownOpcode w

/-- The decoder: total on every word, pure, rejecting by name (R74, R75, R80). -/
def decode (w : Word) : Decoded :=
  match (nib1 w).toNat with
  | 0x0 => decodeZero w
  | 0x1 => .instr (.jp (fieldNNN w))
  | 0x2 => .instr (.call (fieldNNN w))
  | 0x3 => .instr (.seByte (fieldX w) (fieldKK w))
  | 0x4 => .instr (.sneByte (fieldX w) (fieldKK w))
  | 0x5 => .instr (.seReg (fieldX w) (fieldY w))
  | 0x6 => .instr (.ldByte (fieldX w) (fieldKK w))
  | 0x7 => .instr (.addByte (fieldX w) (fieldKK w))
  | 0x8 => decodeAlu w
  | 0x9 => .instr (.sneReg (fieldX w) (fieldY w))
  | 0xA => .instr (.ldI (fieldNNN w))
  | 0xB => .instr (.jpV0 (fieldNNN w))
  | 0xC => .instr (.rnd (fieldX w) (fieldKK w))
  | 0xD => .instr (.drw (fieldX w) (fieldY w) (fieldN w))
  | 0xE => decodeKeys w
  | 0xF => decodeMisc w
  | _ => .unknownOpcode w     -- a 4-bit value has no other case

/-- An instruction word from its two bytes, the first the most significant (R51). -/
def wordOfBytes (hi lo : Byte) : Word := hi ++ lo

/-- The decoder on bytes: the first two bytes are the word, the rest is handed back; fewer than two bytes hold no
instruction (R70). -/
def decodeBytes : List Byte → Option (Decoded × List Byte)
  | hi :: lo :: rest => some (decode (wordOfBytes hi lo), rest)
  | _ => none

/-! ### The encoder (R79; don't-care fields as R83 writes them) -/

/-- A register number as its 4-bit field. -/
def regBits (x : RegIdx) : BitVec 4 := BitVec.ofFin x

def encNNN (n1 : BitVec 4) (nnn : Addr12) : Word := n1 ++ nnn
def encXKK (n1 : BitVec 4) (x : RegIdx) (kk : Byte) : Word := n1 ++ regBits x ++ kk
def encXYN (n1 : BitVec 4) (x y : RegIdx) (n4 : BitVec 4) : Word := n1 ++ regBits x ++ regBits y ++ n4

/-- The word an assembler writes for `i` (R79, R83): CLS is 0x00E0, RET is 0x00EE, other don't-care fields are 0. -/
def encode : Instr → Word
  | .cls => 0x00E0
  | .ret => 0x00EE
  | .jp nnn => encNNN 0x1 nnn
  | .call nnn => encNNN 0x2 nnn
  | .seByte x kk => encXKK 0x3 x kk
  | .sneByte x kk => encXKK 0x4 x kk
  | .seReg x y => encXYN 0x5 x y 0x0
  | .ldByte x kk => encXKK 0x6 x kk
  | .addByte x kk => encXKK 0x7 x kk
  | .ldReg x y => encXYN 0x8 x y 0x0
  | .orReg x y => encXYN 0x8 x y 0x1
  | .andReg x y => encXYN 0x8 x y 0x2
  | .xorReg x y => encXYN 0x8 x y 0x3
  | .addReg x y => encXYN 0x8 x y 0x4
  | .subReg x y => encXYN 0x8 x y 0x5
  | .shr x => encXYN 0x8 x 0 0x6
  | .subnReg x y => encXYN 0x8 x y 0x7
  | .shl x => encXYN 0x8 x 0 0xE
  | .sneReg x y => encXYN 0x9 x y 0x0
  | .ldI nnn => encNNN 0xA nnn
  | .jpV0 nnn => encNNN 0xB nnn
  | .rnd x kk => encXKK 0xC x kk
  | .drw x y n => encXYN 0xD x y (BitVec.ofNat 4 n)
  | .skp x => encXKK 0xE x 0x9E
  | .sknp x => encXKK 0xE x 0xA1
  | .ldVxDT x => encXKK 0xF x 0x07
  | .ldVxK x => encXKK 0xF x 0x0A
  | .ldDTVx x => encXKK 0xF x 0x15
  | .ldSTVx x => encXKK 0xF x 0x18
  | .addI x => encXKK 0xF x 0x1E
  | .ldF x => encXKK 0xF x 0x29
  | .ldB x => encXKK 0xF x 0x33
  | .ldMemVx x => encXKK 0xF x 0x55
  | .ldVxMem x => encXKK 0xF x 0x65

/-- The bits of a word of `i`'s form that decoding examines or hands on as an operand that is read: all but the
don't-care fields of R76 and the y of SHR and SHL (R78). -/
def Instr.careMask : Instr → Word
  | .cls | .ret => 0xF00F
  | .seReg _ _ | .sneReg _ _ => 0xFFF0
  | .shr _ | .shl _ => 0xFF0F
  | .jp _ | .call _ | .seByte _ _ | .sneByte _ _ | .ldByte _ _ | .addByte _ _ | .ldReg _ _ | .orReg _ _
  | .andReg _ _ | .xorReg _ _ | .addReg _ _ | .subReg _ _ | .subnReg _ _ | .ldI _ | .jpV0 _ | .rnd _ _
  | .drw _ _ _ | .skp _ | .sknp _ | .ldVxDT _ | .ldVxK _ | .ldDTVx _ | .ldSTVx _ | .addI _ | .ldF _ | .ldB _
  | .ldMemVx _ | .ldVxMem _ => 0xFFFF

/-! ### The opcode map (R79): a second reading of the encoding, independent of the decoder -/

/-- One row of R79: its number, its mask and its match. -/
structure OpcodeRow where
  num  : Nat
  mask : Word
  value : Word
  deriving DecidableEq, Repr

/-- The word `w` is of the form of row `r` (R79). -/
def OpcodeRow.holds (r : OpcodeRow) (w : Word) : Bool := w &&& r.mask == r.value

def opcodeRowsLow : List OpcodeRow :=
  [⟨1, 0xF00F, 0x0000⟩, ⟨2, 0xF00F, 0x000E⟩, ⟨3, 0xF000, 0x1000⟩, ⟨4, 0xF000, 0x2000⟩, ⟨5, 0xF000, 0x3000⟩,
   ⟨6, 0xF000, 0x4000⟩, ⟨7, 0xF000, 0x5000⟩, ⟨8, 0xF000, 0x6000⟩, ⟨9, 0xF000, 0x7000⟩] ++
  [⟨10, 0xF00F, 0x8000⟩, ⟨11, 0xF00F, 0x8001⟩, ⟨12, 0xF00F, 0x8002⟩, ⟨13, 0xF00F, 0x8003⟩, ⟨14, 0xF00F, 0x8004⟩,
   ⟨15, 0xF00F, 0x8005⟩, ⟨16, 0xF00F, 0x8006⟩, ⟨17, 0xF00F, 0x8007⟩, ⟨18, 0xF00F, 0x800E⟩]

def opcodeRowsHigh : List OpcodeRow :=
  [⟨19, 0xF000, 0x9000⟩, ⟨20, 0xF000, 0xA000⟩, ⟨21, 0xF000, 0xB000⟩, ⟨22, 0xF000, 0xC000⟩, ⟨23, 0xF000, 0xD000⟩] ++
  [⟨24, 0xF0FF, 0xE09E⟩, ⟨25, 0xF0FF, 0xE0A1⟩, ⟨26, 0xF0FF, 0xF007⟩, ⟨27, 0xF0FF, 0xF00A⟩, ⟨28, 0xF0FF, 0xF015⟩,
   ⟨29, 0xF0FF, 0xF018⟩, ⟨30, 0xF0FF, 0xF01E⟩, ⟨31, 0xF0FF, 0xF029⟩, ⟨32, 0xF0FF, 0xF033⟩, ⟨33, 0xF0FF, 0xF055⟩,
   ⟨34, 0xF0FF, 0xF065⟩]

/-- The 34 rows of R79, in its order. -/
def opcodeMap : List OpcodeRow := opcodeRowsLow ++ opcodeRowsHigh

/-- The number of the row of R79 that `i` is a form of. -/
def Instr.rowNum : Instr → Nat
  | .cls => 1 | .ret => 2 | .jp _ => 3 | .call _ => 4 | .seByte _ _ => 5 | .sneByte _ _ => 6 | .seReg _ _ => 7
  | .ldByte _ _ => 8 | .addByte _ _ => 9 | .ldReg _ _ => 10 | .orReg _ _ => 11 | .andReg _ _ => 12
  | .xorReg _ _ => 13 | .addReg _ _ => 14 | .subReg _ _ => 15 | .shr _ => 16 | .subnReg _ _ => 17 | .shl _ => 18
  | .sneReg _ _ => 19 | .ldI _ => 20 | .jpV0 _ => 21 | .rnd _ _ => 22 | .drw _ _ _ => 23 | .skp _ => 24
  | .sknp _ => 25 | .ldVxDT _ => 26 | .ldVxK _ => 27 | .ldDTVx _ => 28 | .ldSTVx _ => 29 | .addI _ => 30
  | .ldF _ => 31 | .ldB _ => 32 | .ldMemVx _ => 33 | .ldVxMem _ => 34

/-! ### The host's question: a table word, numbered as spec/opcode_table.json numbers it -/

/-- The two bytes of the table word `w` of `nbits` bits as memory holds them: the word's bits above `nbits` are 0, its
most significant byte lies at the lower address (R51). -/
def tableWordBytes (nbits w : Nat) : Byte × Byte :=
  let v := w % 2 ^ nbits
  (BitVec.ofNat 8 (v / 256), BitVec.ofNat 8 v)

/-- The instruction the decoder reads from the table word `w`, or none where it answers `UnknownOpcode`. -/
def decodeTableWord (nbits w : Nat) : Option Instr :=
  match decodeBytes [(tableWordBytes nbits w).1, (tableWordBytes nbits w).2] with
  | some (.instr i, _) => some i
  | some (.unknownOpcode _, _) => none
  | none => none

end Sys2Proof
end

