-- ==== Sys2Proof/Machine/State.lean ====
section
/-!
DEFINITION. The state of the block (spec/10_state.md), its errors (spec/60_exceptions.md R152 to R157), and the state
after reset (R39).
-/

namespace Sys2Proof.Machine

/-- The errors a step can raise (R49, R152). Each one is the spec's own: the step is aborted and the state is left as
it was before the step (R93, R159), so a fault carries no state. All are safe: the machine stops where the spec says
that it returns `Err`. -/
inductive Fault where
  /-- "decode found no matching instruction family" (R153). Raised by the cycle driver on a fetched word that decodes to
  no form. Safe. -/
  | unknownOpcode (word : Word)
  /-- "CALL attempted with stack already full (16 entries)" (R154). Raised by CALL with SP = 16. Safe. -/
  | stackOverflow
  /-- "RET attempted with an empty stack" (R155). Raised by RET with SP = 0. Safe. -/
  | stackUnderflow
  /-- "any memory access … outside [0,4095]" (R156), with the lowest address of the access above 0xFFF (D13). Raised by
  the fetch and by DRW, LD B,Vx, LD [I],Vx and LD Vx,[I]. Safe. -/
  | outOfBounds (address : Nat)
  deriving DecidableEq, Repr

/-- Reasons of the model itself to answer nothing. -/
inductive Refusal where
  /-- The instruction has no meaning in this model yet. Raised by no arm of `exec`: every instruction has its meaning.
  Safe. -/
  | notModelled (mnemonic : String)
  deriving DecidableEq, Repr

/-- The error of `load` (R157, R175). It is no step error. -/
inductive LoadError where
  | romTooLarge (size : Nat)
  deriving DecidableEq, Repr

/-- The state of the cycle driver (R34, R86): `waitingForKey x` holds the destination register of the pending
LD Vx,K. -/
inductive DriverState where
  | running
  | waitingForKey (x : RegIdx)
  deriving DecidableEq, Repr

/-- Memory as (address, byte) pairs in the one canonical form `Memory.wf`; what an address with no pair reads as is
`unlistedByte` (R36, R50). -/
abbrev Memory := List Host.Cell

/-- The framebuffer, 32 rows of 64 pixels: `fb[y][x]` (R33). -/
abbrev Framebuffer := Vector (Vector Bool 64) 32

/-- The whole state (spec/10_state.md). The last four fields are the model's own (INVENTORY.md, '## State'). -/
structure State where
  /-- V0..VF (R20). -/
  v : Vector Byte 16
  /-- I (R28). -/
  i : Word
  /-- PC (R24). -/
  pc : Word
  /-- SP, the number of stack entries, 0..16 (R29). -/
  sp : Fin 17
  /-- The return stack (R30). -/
  stack : Vector Word 16
  /-- DT, the delay timer (R31). -/
  dt : Byte
  /-- ST, the sound timer (R31). -/
  st : Byte
  /-- Memory (R36). -/
  mem : Memory
  /-- Input state: `true` is pressed (R32). -/
  key : Vector Bool 16
  /-- The framebuffer: `true` is on (R33). -/
  fb : Framebuffer
  /-- The cycle driver's state (R34). -/
  drv : DriverState
  /-- The model's own: the parameters of R9, fixed for a run (log 4). -/
  cfg : Config
  /-- The model's own: the input `rand` of the coming step, if the host has supplied it (R45; log 2). -/
  rand : Option Byte
  /-- The model's own: the counter the free value of an unsupplied `rand` is drawn by (log 2). -/
  draws : Nat
  /-- The model's own: the output `fb_changed` of the last step (R46; log 3). -/
  fbChanged : Bool
  deriving DecidableEq, Repr

/-- An all-off framebuffer. -/
def Framebuffer.allOff : Framebuffer := Vector.replicate 32 (Vector.replicate 64 false)

/-- The state after reset with the default parameters, and of a newly created block (R39, R40). Memory lists nothing:
an unlisted byte reads as R39 gives it. -/
def State.reset : State where
  v := Vector.replicate 16 0
  i := 0
  pc := 0x200
  sp := 0
  stack := Vector.replicate 16 0
  dt := 0
  st := 0
  mem := []
  key := Vector.replicate 16 false
  fb := Framebuffer.allOff
  drv := .running
  cfg := Config.default
  rand := none
  draws := 0
  fbChanged := false

/-- What an instruction or a step answers. -/
abbrev Result := Host.Outcome State Fault Refusal

end Sys2Proof.Machine
end

