-- ==== Sys2Proof/Machine/Ops.lean ====
section
/-!
DEFINITION. The named operations over memory, registers, the stack and the framebuffer, and raising an error.
-/

namespace Sys2Proof.Machine

/-! ### Memory (spec/20_memory.md) -/

/-- MEM_SIZE (R8): the addresses are 0..4095 (R50). -/
def memSize : Nat := 4096

/-- FONT_BASE (R8). -/
def fontBase : Nat := 0x050

/-- PROG_START (R8). -/
def progStart : Nat := 0x200

/-- ROM_MAX (R8). -/
def romMax : Nat := 3584

/-- What an address with no pair in memory reads as: its value after reset with the default FONT (R39, R61). -/
def unlistedByte (a : Nat) : Byte :=
  if h : fontBase ≤ a ∧ a < fontBase + 80 then defaultFont[a - fontBase]'(by omega) else 0

/-- `MemRead(a, 1)` (R13). -/
def memRead : Memory → Nat → Byte
  | [], a => unlistedByte a
  | (k, b) :: m, a => if k = a then b else memRead m a

/-- Lists `b` at `a`, keeping the addresses in order. -/
def memInsert : Memory → Nat → Byte → Memory
  | [], a, b => [(a, b)]
  | (k, c) :: m, a, b =>
    if a < k then (a, b) :: (k, c) :: m
    else if a = k then (a, b) :: m
    else (k, c) :: memInsert m a b

/-- Unlists the address `a`. -/
def memErase : Memory → Nat → Memory
  | [], _ => []
  | (k, c) :: m, a => if k = a then memErase m a else (k, c) :: memErase m a

/-- `MemWrite(a, 1, b)` (R13). Writing the value an unlisted address reads as unlists it, so the canonical form stays. -/
def memWrite (m : Memory) (a : Nat) (b : Byte) : Memory :=
  if b = unlistedByte a then memErase m a else memInsert m a b

/-- The canonical form: addresses strictly rising and below 4096, no pair that says what an unlisted address says. -/
def Memory.wf (m : Memory) : Bool :=
  decide (m.Pairwise fun p q => p.1 < q.1) && m.all fun p => decide (p.1 < memSize) && decide (p.2 ≠ unlistedByte p.1)

/-- The `len` bytes at `a`, `a + 1`, …, in increasing address order (R63). -/
def readBytes (m : Memory) (a : Nat) : Nat → List Byte
  | 0 => []
  | n + 1 => memRead m a :: readBytes m (a + 1) n

/-- Writes the bytes at `a`, `a + 1`, …, in increasing address order (R63). -/
def writeBytes (m : Memory) (a : Nat) : List Byte → Memory
  | [] => m
  | b :: bs => writeBytes (memWrite m a b) (a + 1) bs

/-! ### Errors (R14, R93, R159, R162) -/

/-- `raise E`: the step is aborted. There is no trap entry: an error saves nothing, changes no mode and goes to no
vector; the state after it is the state before the step, which is why the fault carries none (R93, R162). -/
def raise (f : Fault) : Result := .fault f

/-- No address of the `len` bytes at `base` lies above 0xFFF. -/
def inRange (base len : Nat) : Bool := decide (len = 0 ∨ base + len ≤ memSize)

/-- The error of an access that is not in range: its lowest address above 0xFFF (R56, R57, D13). -/
def rangeFault (base : Nat) : Fault := .outOfBounds (max base memSize)

/-- `assert_in_range(base .. base + len - 1)`, then the rest: the whole range is checked before anything is read or
written (R15, R57, R137). -/
def guardRange (base len : Nat) (t : State) : Result :=
  if inRange base len then .next t else raise (rangeFault base)

/-! ### General registers (R20) and the other single registers -/

/-- `V[x]`. -/
def readV (s : State) (x : RegIdx) : Byte := s.v.get x

/-- `V[x] <- b`. -/
def writeV (s : State) (x : RegIdx) (b : Byte) : State := { s with v := s.v.set x.val b x.isLt }

/-- `V[0..x]`, V0 first. -/
def readVs (s : State) (x : RegIdx) : List Byte := s.v.toList.take (x.val + 1)

/-- Writes the bytes to registers `k`, `k + 1`, …. -/
def writeRegsFrom (v : Vector Byte 16) (k : Nat) : List Byte → Vector Byte 16
  | [] => v
  | b :: bs => writeRegsFrom (v.setIfInBounds k b) (k + 1) bs

/-- `V[0..] <- bs`, V0 first. -/
def writeVs (s : State) (bs : List Byte) : State := { s with v := writeRegsFrom s.v 0 bs }

/-- `PC <- a`. -/
def setPC (s : State) (a : Word) : State := { s with pc := a }

/-- `skip`: `PC <- PC + 2`, when the condition holds (R15, R108). -/
def skipIf (c : Bool) (s : State) : State := if c then setPC s (s.pc + 2) else s

/-- `I <- a`. -/
def setI (s : State) (a : Word) : State := { s with i := a }

/-- `DT <- b`. -/
def setDT (s : State) (b : Byte) : State := { s with dt := b }

/-- `ST <- b`. -/
def setST (s : State) (b : Byte) : State := { s with st := b }

/-- `mem <- m`. -/
def setMem (s : State) (m : Memory) : State := { s with mem := m }

/-- `drv <- d`. -/
def setDrv (s : State) (d : DriverState) : State := { s with drv := d }

/-- The input `rand` of this step: the byte the host supplied, or a free value (R45, D23; log 2). -/
def randByte (s : State) : Byte := s.rand.getD (Config.freeByte s.draws)

/-! ### The return stack (R29, R30) -/

/-- `stack[SP] <- a; SP <- SP + 1`, or none when the stack is full (R114). -/
def pushStack (s : State) (a : Word) : Option State :=
  if h : s.sp.val < 16 then
    some { s with stack := s.stack.set s.sp.val a h, sp := ⟨s.sp.val + 1, by omega⟩ }
  else none

/-- `SP <- SP - 1`, with `stack[SP]`; the entry is left as it was (R30, D24). None when the stack is empty (R112). -/
def popStack (s : State) : Option (Word × State) :=
  if h : 0 < s.sp.val then
    some (s.stack[s.sp.val - 1]'(by omega), { s with sp := ⟨s.sp.val - 1, by omega⟩ })
  else none

/-! ### The framebuffer (R33) and a sprite (R101 to R105) -/

/-- `fb[y][x]`; a coordinate outside the grid is never on. -/
def fbGet (fb : Framebuffer) (x y : Nat) : Bool :=
  if h : y < 32 ∧ x < 64 then (fb[y]'h.1)[x]'h.2 else false

/-- `fb[y][x] <- p`; outside the grid the write is dropped (R103). -/
def fbSet (fb : Framebuffer) (x y : Nat) (p : Bool) : Framebuffer :=
  if h : y < 32 ∧ x < 64 then fb.set y ((fb[y]'h.1).set x p h.2) h.1 else fb

/-- The framebuffer is replaced, and the step has changed it (R99, R100, R101). -/
def setFb (s : State) (fb : Framebuffer) : State := { s with fb := fb, fbChanged := true }

/-- What a set sprite bit makes of its pixel (R105, D11). -/
def plot (mode : DrawMode) (p : Bool) : Bool :=
  match mode with
  | .forceOn => true
  | .xor => !p

/-- A set sprite bit at (px, py): outside the grid it is dropped; inside, a pixel that is on is a collision, and the
pixel is plotted (R103, R105). The pair is the framebuffer and the collision so far. -/
def plotBit (mode : DrawMode) (px py : Nat) (acc : Framebuffer × Bool) : Framebuffer × Bool :=
  if px ≤ 63 ∧ py ≤ 31 then
    (fbSet acc.1 px py (plot mode (fbGet acc.1 px py)), acc.2 || fbGet acc.1 px py)
  else acc

/-- One sprite row, columns 0 to 7: bit 7 is column 0 (R104, D8). -/
def drawRow (mode : DrawMode) (x0 py : Nat) (row : Byte) (acc : Framebuffer × Bool) : Framebuffer × Bool :=
  (List.range 8).foldl (fun a c => if row.getLsbD (7 - c) then plotBit mode (x0 + c) py a else a) acc

/-- The sprite's rows from screen row `py` on (R101). -/
def drawRows (mode : DrawMode) (x0 : Nat) : Nat → List Byte → Framebuffer × Bool → Framebuffer × Bool
  | _, [], acc => acc
  | py, row :: rows, acc => drawRows mode x0 (py + 1) rows (drawRow mode x0 py row acc)

/-! ### Placing a program word where the next step fetches it -/

/-- Where `placeWord` puts a word: at PC, or at 0x200 when no word can be fetched at PC. -/
def placeAddr (s : State) : Word := if s.pc.toNat + 1 < memSize then s.pc else 0x200

/-- Stores the two bytes where the next step fetches its instruction, and makes the driver run (log 6). -/
def placeWord (s : State) (hi lo : Byte) : State :=
  { s with mem := writeBytes s.mem (placeAddr s).toNat [hi, lo], pc := placeAddr s, drv := .running }

end Sys2Proof.Machine
end

