-- ==== Sys2Proof/Machine/Flags.lean ====
section
/-!
DEFINITION. The flag VF: the value each flag-writing instruction gives it, and the write that keeps one value when VF is
the destination too (spec/43_alu.md R121, R122, R129 to R133; spec/10_state.md R22).
-/

namespace Sys2Proof.Machine

/-- `zext_8` of a one-bit flag. -/
def flagByte (f : Bool) : Byte := if f then 1 else 0

/-- ADD Vx,Vy: the sum exceeds 255 (R129). -/
def carryOut (a b : Byte) : Bool := decide (255 < a.toNat + b.toNat)

/-- SUB and SUBN: the first operand is strictly greater, the source's NOT-borrow (R130, R132). -/
def notBorrow (a b : Byte) : Bool := decide (b.toNat < a.toNat)

/-- SHR: the bit shifted out, bit 0 (R131). -/
def shiftedOutLow (a : Byte) : Bool := a.getLsbD 0

/-- SHL: the bit shifted out, bit 7 (R133). -/
def shiftedOutHigh (a : Byte) : Bool := a.getLsbD 7

/-- `write_flagged(x, res, f)` (R122): the result to V[x] and the flag to VF; when they are one register, VF_WRITE_ORDER
says which value it keeps (D10). -/
def writeFlagged (s : State) (x : RegIdx) (res : Byte) (f : Bool) : State :=
  if x ≠ regF then writeV (writeV s x res) regF (flagByte f)
  else
    match s.cfg.vfWriteOrder with
    | .flagLast => writeV s regF (flagByte f)
    | .resultLast => writeV s regF res

end Sys2Proof.Machine
end

