-- ==== Sys2Proof/Machine/Operands.lean ====
section
/-!
DEFINITION. The operand forms: immediates, the I-relative address, the key operand, the glyph address.
-/

namespace Sys2Proof.Machine

/-- `zext_16(nnn)` (R73). -/
def addrOperand (nnn : Addr12) : Word := nnn.setWidth 16

/-- The I-relative address `I + k`, on naturals: no wrap, no masking (R55, R136). -/
def indexAddr (s : State) (k : Nat) : Nat := s.i.toNat + k

/-- The address of JP V0,addr: `zext_16(nnn) + zext_16(V[0])`, at most 0x10FE (R119). -/
def offsetTarget (s : State) (nnn : Addr12) : Word := nnn.setWidth 16 + (readV s 0).setWidth 16

/-- `0x050 + 5 * V[x]`: the whole of V[x], not its low nibble (R140). -/
def glyphAddr (b : Byte) : Word := 0x050 + 5 * b.setWidth 16

/-- `pressed(v) = (v <= 0x0F) and key[v]` (R145, D7). -/
def keyPressed (s : State) (b : Byte) : Bool :=
  if h : b.toNat < 16 then s.key.get ⟨b.toNat, h⟩ else false

/-- "the lowest-indexed pressed key", if one is pressed (R87). -/
def lowestKey (s : State) : Option RegIdx := (List.finRange 16).find? fun k => s.key.get k

/-- A key number as a register's value (R85: `zext_8` of the 4-bit key number). -/
def keyByte (k : RegIdx) : Byte := BitVec.ofNat 8 k.val

/-- The three decimal digits of a byte, hundreds first (R141). -/
def bcdDigits (b : Byte) : List Byte :=
  [BitVec.ofNat 8 (b.toNat / 100), BitVec.ofNat 8 (b.toNat / 10 % 10), BitVec.ofNat 8 (b.toNat % 10)]

/-- The column a sprite is placed at: `vx mod 64` (R102). -/
def spriteCol (b : Byte) : Nat := b.toNat % 64

/-- The row a sprite is placed at: `vy mod 32` (R102). -/
def spriteRow (b : Byte) : Nat := b.toNat % 32

end Sys2Proof.Machine
end

