-- ==== Sys2Proof/Machine/Alu.lean ====
section
/-!
DEFINITION. Register arithmetic and logic (spec/43_alu.md). Every operand is read before any write (R121); 8-bit
arithmetic wraps modulo 256.
-/

namespace Sys2Proof.Machine

/-- LD Vx,byte (R123). -/
def execLdByte (x : RegIdx) (kk : Byte) (s : State) : Result := .next (writeV s x kk)

/-- ADD Vx,byte (R124): no flag. -/
def execAddByte (x : RegIdx) (kk : Byte) (s : State) : Result := .next (writeV s x (readV s x + kk))

/-- LD Vx,Vy (R125). -/
def execLdReg (x y : RegIdx) (s : State) : Result := .next (writeV s x (readV s y))

/-- OR Vx,Vy (R126): VF is no flag here. -/
def execOrReg (x y : RegIdx) (s : State) : Result := .next (writeV s x (readV s x ||| readV s y))

/-- AND Vx,Vy (R127). -/
def execAndReg (x y : RegIdx) (s : State) : Result := .next (writeV s x (readV s x &&& readV s y))

/-- XOR Vx,Vy (R128). -/
def execXorReg (x y : RegIdx) (s : State) : Result := .next (writeV s x (readV s x ^^^ readV s y))

/-- ADD Vx,Vy (R129). -/
def execAddReg (x y : RegIdx) (s : State) : Result :=
  .next (writeFlagged s x (readV s x + readV s y) (carryOut (readV s x) (readV s y)))

/-- SUB Vx,Vy (R130). -/
def execSubReg (x y : RegIdx) (s : State) : Result :=
  .next (writeFlagged s x (readV s x - readV s y) (notBorrow (readV s x) (readV s y)))

/-- SHR Vx (R131): Vy is not read (R78). -/
def execShr (x : RegIdx) (s : State) : Result :=
  .next (writeFlagged s x (readV s x >>> 1) (shiftedOutLow (readV s x)))

/-- SUBN Vx,Vy (R132, C4). -/
def execSubnReg (x y : RegIdx) (s : State) : Result :=
  .next (writeFlagged s x (readV s y - readV s x) (notBorrow (readV s y) (readV s x)))

/-- SHL Vx (R133): Vy is not read (R78). -/
def execShl (x : RegIdx) (s : State) : Result :=
  .next (writeFlagged s x (readV s x <<< 1) (shiftedOutHigh (readV s x)))

/-- RND Vx,byte (R134): the step's input `rand`, masked. -/
def execRnd (x : RegIdx) (kk : Byte) (s : State) : Result := .next (writeV s x (randByte s &&& kk))

end Sys2Proof.Machine
end

