-- ==== Sys2Proof/Machine/Display.lean ====
section
/-!
DEFINITION. The display instructions (spec/41_display.md). Every meaning runs with PC already past its instruction (R90).
-/

namespace Sys2Proof.Machine

/-- CLS (R100). -/
def execCls (s : State) : Result := .next (setFb s Framebuffer.allOff)

/-- The framebuffer and the collision after DRW's sprite, drawn from the state `s` (R101 to R105). -/
def drawSprite (s : State) (x y : RegIdx) (n : Nat) : Framebuffer × Bool :=
  drawRows s.cfg.drawMode (spriteCol (readV s x)) (spriteRow (readV s y)) (readBytes s.mem (indexAddr s 0) n) (s.fb, false)

/-- DRW Vx,Vy,n (R101): all n bytes are checked, clipped or not (R106); VF is always written (R105). -/
def execDrw (x y : RegIdx) (n : Nat) (s : State) : Result :=
  guardRange (indexAddr s 0) n
    (writeV (setFb s (drawSprite s x y n).1) regF (flagByte (drawSprite s x y n).2))

end Sys2Proof.Machine
end

