-- ==== Sys2Proof/Machine/Flow.lean ====
section
/-!
DEFINITION. Control transfer (spec/42_flow.md). PC already holds the instruction's address plus 2 (R108).
-/

namespace Sys2Proof.Machine

/-- RET (R112). -/
def execRet (s : State) : Result :=
  match popStack s with
  | none => raise .stackUnderflow
  | some (a, t) => .next (setPC t a)

/-- JP addr (R113): the target is not checked here (R110). -/
def execJp (nnn : Addr12) (s : State) : Result := .next (setPC s (addrOperand nnn))

/-- CALL addr (R114): pushes the address after this CALL. -/
def execCall (nnn : Addr12) (s : State) : Result :=
  match pushStack s s.pc with
  | none => raise .stackOverflow
  | some t => .next (setPC t (addrOperand nnn))

/-- SE Vx,byte (R115). -/
def execSeByte (x : RegIdx) (kk : Byte) (s : State) : Result := .next (skipIf (readV s x == kk) s)

/-- SNE Vx,byte (R116). -/
def execSneByte (x : RegIdx) (kk : Byte) (s : State) : Result := .next (skipIf (readV s x != kk) s)

/-- SE Vx,Vy (R117). -/
def execSeReg (x y : RegIdx) (s : State) : Result := .next (skipIf (readV s x == readV s y) s)

/-- SNE Vx,Vy (R118). -/
def execSneReg (x y : RegIdx) (s : State) : Result := .next (skipIf (readV s x != readV s y) s)

/-- JP V0,addr (R119): PC is assigned, not added to (C5). -/
def execJpV0 (nnn : Addr12) (s : State) : Result := .next (setPC s (offsetTarget s nnn))

end Sys2Proof.Machine
end

