-- ==== Sys2Proof/Machine/Index.lean ====
section
/-!
DEFINITION. The index register and the memory transfers (spec/44_index_memory.md). None of the transfers changes I (R136).
-/

namespace Sys2Proof.Machine

/-- LD I,addr (R138). -/
def execLdI (nnn : Addr12) (s : State) : Result := .next (setI s (addrOperand nnn))

/-- ADD I,Vx (R139): modulo 2^16, VF is not written. -/
def execAddI (x : RegIdx) (s : State) : Result := .next (setI s (s.i + (readV s x).setWidth 16))

/-- LD F,Vx (R140). -/
def execLdF (x : RegIdx) (s : State) : Result := .next (setI s (glyphAddr (readV s x)))

/-- LD B,Vx (R141). -/
def execLdB (x : RegIdx) (s : State) : Result :=
  guardRange (indexAddr s 0) 3 (setMem s (writeBytes s.mem (indexAddr s 0) (bcdDigits (readV s x))))

/-- LD [I],Vx (R142): stores V0..Vx. -/
def execLdMemVx (x : RegIdx) (s : State) : Result :=
  guardRange (indexAddr s 0) (x.val + 1) (setMem s (writeBytes s.mem (indexAddr s 0) (readVs s x)))

/-- LD Vx,[I] (R143): loads V0..Vx. -/
def execLdVxMem (x : RegIdx) (s : State) : Result :=
  guardRange (indexAddr s 0) (x.val + 1) (writeVs s (readBytes s.mem (indexAddr s 0) (x.val + 1)))

end Sys2Proof.Machine
end

