-- ==== Sys2Proof/Machine/Keys.lean ====
section
/-!
DEFINITION. Keys and timers (spec/45_keys_timers.md).
-/

namespace Sys2Proof.Machine

/-- SKP Vx (R146). -/
def execSkp (x : RegIdx) (s : State) : Result := .next (skipIf (keyPressed s (readV s x)) s)

/-- SKNP Vx (R147). -/
def execSknp (x : RegIdx) (s : State) : Result := .next (skipIf (!keyPressed s (readV s x)) s)

/-- LD Vx,DT (R148): DT before this step's tick. -/
def execLdVxDT (x : RegIdx) (s : State) : Result := .next (writeV s x s.dt)

/-- LD Vx,K (R149): enters the wait, writes no register; the wait is resolved by a later step (R87, R91). -/
def execLdVxK (x : RegIdx) (s : State) : Result := .next (setDrv s (.waitingForKey x))

/-- LD DT,Vx (R150). -/
def execLdDTVx (x : RegIdx) (s : State) : Result := .next (setDT s (readV s x))

/-- LD ST,Vx (R151). -/
def execLdSTVx (x : RegIdx) (s : State) : Result := .next (setST s (readV s x))

end Sys2Proof.Machine
end

