-- ==== Sys2Proof/Machine/Driver.lean ====
section
/-!
DEFINITION. The cycle driver (spec/40_cycle_driver.md): fetch, PC advance, dispatch, the key wait, the timer tick.
-/

namespace Sys2Proof.Machine

/-- The start of every step: `fb_changed <- false` (R85). -/
def beginStep (s : State) : State := { s with fbChanged := false }

/-- A timer's tick: down by one when above 0 (R166). -/
def tickTimer (b : Byte) : Byte := if b.toNat > 0 then b - 1 else 0

/-- `tick()` (R166). -/
def tick (s : State) : State := { s with dt := tickTimer s.dt, st := tickTimer s.st }

/-- The end of every step that returns `Ok`: the tick (R92); and the step's input `rand` is used up (log 2). -/
def closeStep (s : State) : State := { tick s with rand := none, draws := s.draws + 1 }

/-- Ends a step that an instruction's result ends: an error aborts it (R93). -/
def finishStep : Result → Result
  | .next t => .next (closeStep t)
  | .fault f => .fault f
  | .refused r => .refused r

/-- The word at address `a`, most significant byte first (R51, R52). -/
def wordAt (m : Memory) (a : Nat) : Word := wordOfBytes (memRead m a) (memRead m (a + 1))

/-- `PC <- PC + 2` (R90). -/
def advancePC (s : State) : State := setPC s (s.pc + 2)

/-- Decodes and executes the fetched word, PC already advanced (R85, R90). -/
def runWord (w : Word) (s : State) : Result :=
  match decode w with
  | .unknownOpcode u => raise (.unknownOpcode u)
  | .instr i => finishStep (exec i (advancePC (beginStep s)))

/-- A step in the state `Running` (R85, R90): a fetch that reaches above 0xFFF is an error before any change (R56). -/
def runningStep (s : State) : Result :=
  if inRange s.pc.toNat 2 then runWord (wordAt s.mem s.pc.toNat) s else raise (rangeFault s.pc.toNat)

/-- A step in the state `WaitingForKey(x)` (R85, R87, R88): the lowest pressed key's number goes to V[x] and the driver
runs again; with no key pressed nothing changes. No instruction is fetched. -/
def resolveWait (x : RegIdx) (s : State) : State :=
  match lowestKey s with
  | some k => setDrv (writeV s x (keyByte k)) .running
  | none => s

/-- One `step()` (R85). -/
def cycle (s : State) : Result :=
  match s.drv with
  | .waitingForKey x => .next (closeStep (resolveWait x (beginStep s)))
  | .running => runningStep s

end Sys2Proof.Machine
end

