-- ==== Sys2Proof/Machine/Step.lean ====
section
/-!
DEFINITION. One step of the machine, and placing a word where the next step fetches it.
-/

namespace Sys2Proof.Machine

/-- One call of `step()` (spec/40_cycle_driver.md R85). -/
def step (s : State) : Host.Outcome State Fault Refusal := cycle s

/-- `s` with the table word `w` stored where `step` fetches its next instruction, and the driver running (log 6). -/
def State.withFetchWord (s : State) (nbits w : Nat) : State :=
  placeWord s (tableWordBytes nbits w).1 (tableWordBytes nbits w).2

end Sys2Proof.Machine
end

