-- ==== Sys2Proof/Machine/HostPort.lean ====
section
/-!
DEFINITION. The host's transactions on the block (spec/70_reset_and_hazards.md, spec/10_state.md section 8). Each is
atomic and runs only between steps (R42, R180).
-/

namespace Sys2Proof.Machine

/-- `reset()` in any state (R173, R174): every piece of state takes its value of R39, with the FONT the block is
configured with. The parameters stay; the next step's input is no state of the block and stays too. -/
def hostReset (s : State) : State :=
  { v := Vector.replicate 16 0, i := 0, pc := 0x200, sp := 0, stack := Vector.replicate 16 0, dt := 0, st := 0,
    mem := writeBytes [] fontBase s.cfg.font.toList, key := Vector.replicate 16 false, fb := Framebuffer.allOff,
    drv := .running, cfg := s.cfg, rand := s.rand, draws := s.draws, fbChanged := false }

/-- A newly created block with the parameters `c` (R9, R40). -/
def newBlock (c : Config) : State := hostReset { State.reset with cfg := c }

/-- `load(bytes)` (R175 to R177): too many bytes are rejected and nothing is written; else they are copied to 0x200 on. -/
def load (s : State) (bytes : List Byte) : Except LoadError State :=
  if bytes.length > romMax then .error (.romTooLarge bytes.length)
  else .ok (setMem s (writeBytes s.mem progStart bytes))

/-- `setKey(index, pressed)` (R178). -/
def setKey (s : State) (k : RegIdx) (pressed : Bool) : State := { s with key := s.key.set k.val pressed k.isLt }

/-- The host supplies the random byte of the coming step (R43, R45). -/
def supplyRand (s : State) (b : Byte) : State := { s with rand := some b }

/-- `framebufferSnapshot()`: the 2048 pixels in row-major order, pixel (x, y) at index 64*y + x (R33, R48). -/
def framebufferSnapshot (s : State) : Vector Bool (32 * 64) := s.fb.flatten

/-- The record of `registerSnapshot()` (R47), with the driver state (R34, D32). -/
structure RegisterSnapshot where
  pc : Word
  i : Word
  sp : Fin 17
  v : Vector Byte 16
  delay : Byte
  sound : Byte
  stack : Vector Word 16
  drv : DriverState
  deriving DecidableEq, Repr

/-- `registerSnapshot()` (R47). -/
def registerSnapshot (s : State) : RegisterSnapshot :=
  { pc := s.pc, i := s.i, sp := s.sp, v := s.v, delay := s.dt, sound := s.st, stack := s.stack, drv := s.drv }

/-- `StepOutcome` (R46, R95). -/
structure StepOutcome where
  fbChanged : Bool
  dt : Byte
  st : Byte
  deriving DecidableEq, Repr

/-- The outcome a step that ends in `t` returns: the timers after the tick (R95, D16). -/
def outcomeOf (t : State) : StepOutcome := { fbChanged := t.fbChanged, dt := t.dt, st := t.st }

/-- What the host may ask of the block (R42, R181). -/
inductive Transaction where
  | reset
  | load (bytes : List Byte)
  | step (rand : Byte)
  | setKey (index : RegIdx) (pressed : Bool)
  | framebufferSnapshot
  | registerSnapshot
  deriving DecidableEq, Repr

/-- What the block returns (R44, R181). `stepRefused` is the model's: it would stand for an instruction with no meaning,
and there is none. -/
inductive Reply where
  | done
  | loadErr (e : LoadError)
  | stepOk (o : StepOutcome)
  | stepErr (f : Fault)
  | stepRefused (r : Refusal)
  | pixels (p : Vector Bool (32 * 64))
  | registers (r : RegisterSnapshot)
  deriving DecidableEq, Repr

/-- One transaction: the state after it and the reply (R181). A step or a load that errs leaves the state as it was
(R93, R175). -/
def transact (a : Transaction) (s : State) : State × Reply :=
  match a with
  | .reset => (hostReset s, .done)
  | .load bytes =>
    match load s bytes with
    | .ok t => (t, .done)
    | .error e => (s, .loadErr e)
  | .step b =>
    match step (supplyRand s b) with
    | .next t => (t, .stepOk (outcomeOf t))
    | .fault f => (s, .stepErr f)
    | .refused r => (s, .stepRefused r)
  | .setKey k p => (setKey s k p, .done)
  | .framebufferSnapshot => (s, .pixels (framebufferSnapshot s))
  | .registerSnapshot => (s, .registers (registerSnapshot s))

end Sys2Proof.Machine
end

