-- ==== Sys2Proof/Safety.lean ====
section
/-!
DEFINITION. The words the statements are in: what a step runs, which instructions write what, the pixels under a sprite,
the invariant of the machine, and the states the host can bring a block to.
-/

namespace Sys2Proof

/-- The instructions that write V[r], by the list of R21 (LD Vx,K writes it in a later step). -/
def Instr.writesV (i : Instr) (r : RegIdx) : Bool :=
  match i with
  | .ldByte x _ | .addByte x _ | .ldReg x _ | .orReg x _ | .andReg x _ | .xorReg x _ | .rnd x _ | .ldVxDT x => r == x
  | .addReg x _ | .subReg x _ | .shr x | .subnReg x _ | .shl x => r == x || r == 15
  | .drw _ _ _ => r == 15
  | .ldVxMem x => decide (r ≤ x)
  | .cls | .ret | .jp _ | .call _ | .seByte _ _ | .sneByte _ _ | .seReg _ _ | .sneReg _ _ | .ldI _ | .jpV0 _
  | .skp _ | .sknp _ | .ldVxK _ | .ldDTVx _ | .ldSTVx _ | .addI _ | .ldF _ | .ldB _ | .ldMemVx _ => false

/-- The skips (R108, R145). -/
def Instr.skips : Instr → Bool
  | .seByte _ _ | .sneByte _ _ | .seReg _ _ | .sneReg _ _ | .skp _ | .sknp _ => true
  | .cls | .ret | .jp _ | .call _ | .ldByte _ _ | .addByte _ _ | .ldReg _ _ | .orReg _ _ | .andReg _ _
  | .xorReg _ _ | .addReg _ _ | .subReg _ _ | .shr _ | .subnReg _ _ | .shl _ | .ldI _ | .jpV0 _ | .rnd _ _
  | .drw _ _ _ | .ldVxDT _ | .ldVxK _ | .ldDTVx _ | .ldSTVx _ | .addI _ | .ldF _ | .ldB _ | .ldMemVx _
  | .ldVxMem _ => false

/-- The jumps, the call and the return: the instructions that overwrite PC (R108). -/
def Instr.jumps : Instr → Bool
  | .ret | .jp _ | .call _ | .jpV0 _ => true
  | .cls | .seByte _ _ | .sneByte _ _ | .seReg _ _ | .sneReg _ _ | .skp _ | .sknp _ | .ldByte _ _ | .addByte _ _
  | .ldReg _ _ | .orReg _ _ | .andReg _ _ | .xorReg _ _ | .addReg _ _ | .subReg _ _ | .shr _ | .subnReg _ _
  | .shl _ | .ldI _ | .rnd _ _ | .drw _ _ _ | .ldVxDT _ | .ldVxK _ | .ldDTVx _ | .ldSTVx _ | .addI _ | .ldF _
  | .ldB _ | .ldMemVx _ | .ldVxMem _ => false

end Sys2Proof

namespace Sys2Proof.Machine

/-- The step from `s` fetches, decodes and executes the instruction `i` (R85, R90). -/
def Runs (s : State) (i : Instr) : Prop :=
  s.drv = .running ∧ s.pc.toNat ≤ 0xFFE ∧ decode (wordAt s.mem s.pc.toNat) = .instr i

/-- Every word of a row of R79 decodes to that row's form, its operands the word's fields (R71, R79). -/
def Encodes (mask value : Word) (form : Word → Instr) : Prop :=
  ∀ w : Word, w &&& mask = value → decode w = .instr (form w)

/-- The instruction `i` with destination `x` answers the result and the flag it is given, as numbers, and changes
nothing but V[x] and VF; when x is VF, VF keeps the value VF_WRITE_ORDER says (R122). -/
def AnswersFlagged (i : Instr) (x : RegIdx) (result flag : State → Nat) : Prop :=
  ∀ s, ∃ t, exec i s = .next t ∧ t = { s with v := t.v } ∧
    (x ≠ 15 → (t.v.get x).toNat = result s ∧ (t.v.get 15).toNat = flag s) ∧
    (x = 15 → s.cfg.vfWriteOrder = .flagLast → (t.v.get 15).toNat = flag s) ∧
    (x = 15 → s.cfg.vfWriteOrder = .resultLast → (t.v.get 15).toNat = result s) ∧
    ∀ r, r ≠ x → r ≠ 15 → t.v.get r = s.v.get r

/-- Pixel (px, py) lies on the screen under a set bit of the n-row sprite that DRW Vx,Vy,n draws in the state `s`: bit 7
of a byte is its leftmost column, placement wraps, and nothing is drawn past the edge (R101 to R104). -/
def SpriteBit (s : State) (x y : RegIdx) (n : Nat) (px py : Nat) : Prop :=
  px ≤ 63 ∧ py ≤ 31 ∧
  ∃ r c, r < n ∧ c < 8 ∧ px = (s.v.get x).toNat % 64 + c ∧ py = (s.v.get y).toNat % 32 + r ∧
    (memRead s.mem (s.i.toNat + r)).getLsbD (7 - c) = true

/-- The own check of the instruction `i` fails in `s` with the error `f` (R161). -/
def OwnError (i : Instr) (s : State) (f : Fault) : Prop :=
  (∃ a, i = .call a ∧ s.sp.val = 16 ∧ f = .stackOverflow) ∨
  (i = .ret ∧ s.sp.val = 0 ∧ f = .stackUnderflow) ∨
  (∃ x y n, i = .drw x y n ∧ 0 < n ∧ 0xFFF < s.i.toNat + n - 1 ∧ f = .outOfBounds (max s.i.toNat 0x1000)) ∨
  (∃ x, i = .ldB x ∧ 0xFFF < s.i.toNat + 2 ∧ f = .outOfBounds (max s.i.toNat 0x1000)) ∨
  (∃ x : RegIdx, (i = .ldMemVx x ∨ i = .ldVxMem x) ∧ 0xFFF < s.i.toNat + x.val ∧
    f = .outOfBounds (max s.i.toNat 0x1000))

/-- A change of the next state, and of nothing else. -/
def mapNext (g : State → State) : Result → Result
  | .next t => .next (g t)
  | .fault f => .fault f
  | .refused r => .refused r

/-- The instructions executed one after another, up to the first that stops. -/
def execAll : List Instr → State → Result
  | [], s => .next s
  | i :: is, s =>
    match exec i s with
    | .next t => execAll is t
    | .fault f => .fault f
    | .refused r => .refused r

/-- The machine's invariant: memory is in its canonical form, PC is at most 0x10FE (R26, R41), and every return address
on the stack is at most 0x1000 (R26). -/
structure State.Inv (s : State) : Prop where
  mem_wf : Memory.wf s.mem = true
  pc_le : s.pc.toNat ≤ 0x10FE
  stack_le : ∀ k : Fin 16, (s.stack.get k).toNat ≤ 0x1000

/-- The states the host can bring a newly created block to, by any transactions in any order (R42, R180). -/
inductive Reachable : State → Prop where
  | new (c : Config) : Reachable (newBlock c)
  | next (a : Transaction) {s : State} : Reachable s → Reachable (transact a s).1

end Sys2Proof.Machine
end

