-- ==== Sys2Proof/Certificates/Slice0/Obligations.lean ====
section
/-!
DEFINITION. The statements for the provers. In a statement about `exec i s` the state `s` is the one an instruction runs
in, with PC already past it (R90); `t = { s with f := t.f }` says that no field but `f` changes. A clause that rests on a
decision of the spec (D<n>) says so in its docstring.
-/

open Sys2Proof Sys2Proof.Machine

/-! ### Encoding (spec/30_encoding.md) -/

/-- Words written out bit by bit from the encodings of R79, one or two a family, decode to the instruction they stand for;
a word of no row is rejected by name. -/
def Obligations.WordsWrittenOutDecode : Prop :=
  decode 0b0000_0000_1110_0000 = .instr .cls ∧
  decode 0b1101_0001_0010_0101 = .instr (.drw 1 2 5) ∧
  decode 0b0010_0011_0100_0101 = .instr (.call 0x345) ∧
  decode 0b0101_0001_0010_0000 = .instr (.seReg 1 2) ∧
  decode 0b0111_1010_0100_0010 = .instr (.addByte 10 0x42) ∧
  decode 0b1000_0001_0010_0111 = .instr (.subnReg 1 2) ∧
  decode 0b1111_0011_0011_0011 = .instr (.ldB 3) ∧
  decode 0b1111_1111_0110_0101 = .instr (.ldVxMem 15) ∧
  decode 0b1110_0101_1010_0001 = .instr (.sknp 5) ∧
  decode 0b1111_0010_0000_1010 = .instr (.ldVxK 2) ∧
  decode 0b0000_0001_0010_0011 = .unknownOpcode 0x0123

/-- Decoding an encoded well-formed instruction gives it back, with every operand at every value its field admits. -/
def Obligations.DecodeInvertsEncode : Prop :=
  ∀ i : Instr, i.wf = true → decode (encode i) = .instr i

/-- A word decodes to `i` exactly when `i` is well formed and the word is `i`'s encoding up to the fields `i`'s form does
not read (R76, R78; D21, D28). So decoding is unambiguous and drops no bit that is read. -/
def Obligations.DecodedWordsAreTheEncodings : Prop :=
  ∀ (w : Word) (i : Instr), decode w = .instr i ↔ i.wf = true ∧ w &&& i.careMask = encode i &&& i.careMask

/-- The decoder of R75 is the opcode map of R79: "A word `w` is form k exactly when `w & mask_k == match_k`"; the rows are
pairwise disjoint. -/
def Obligations.DecoderIsTheOpcodeMap : Prop :=
  (∀ (w : Word) (r : OpcodeRow), r ∈ opcodeMap →
    (w &&& r.mask = r.value ↔ ∃ i, decode w = .instr i ∧ i.rowNum = r.num)) ∧
  (∀ r ∈ opcodeMap, ∀ q ∈ opcodeMap, ∀ w : Word, w &&& r.mask = r.value → w &&& q.mask = q.value → r = q)

/-- The words that decode to `UnknownOpcode` are the four groups of R80, and no other; every other word decodes to a
well-formed instruction. -/
def Obligations.UnknownWordsAreFourGroups : Prop :=
  (∀ w : Word, decode w = .unknownOpcode w ↔
    ((nib1 w = 0x0 ∧ nib4 w ∉ [0x0, 0xE]) ∨
     (nib1 w = 0x8 ∧ nib4 w ∈ [0x8, 0x9, 0xA, 0xB, 0xC, 0xD, 0xF]) ∨
     (nib1 w = 0xE ∧ fieldKK w ∉ [0x9E, 0xA1]) ∨
     (nib1 w = 0xF ∧ fieldKK w ∉ [0x07, 0x0A, 0x15, 0x18, 0x1E, 0x29, 0x33, 0x55, 0x65]))) ∧
  (∀ w : Word, decode w = .unknownOpcode w ∨ ∃ i, decode w = .instr i ∧ i.wf = true)

/-! ### The step (spec/40_cycle_driver.md) -/

/-- A step runs the instruction it fetched and decoded, on the state with PC advanced by 2 and `fb_changed` cleared; an
answer is followed by the tick of both timers, an error is handed on (R85, R90, R92, R93). The step's input is used up:
the fields `rand` and `draws` are the model's own (log 2). -/
def Obligations.StepRunsDecodedInstruction : Prop :=
  ∀ (s : State) (i : Instr), Runs s i →
    (∀ t, exec i { s with pc := s.pc + 2, fbChanged := false } = .next t →
      step s = .next { t with dt := if t.dt = 0 then 0 else t.dt - 1, st := if t.st = 0 then 0 else t.st - 1,
                              rand := none, draws := t.draws + 1 }) ∧
    (∀ f, exec i { s with pc := s.pc + 2, fbChanged := false } = .fault f → step s = .fault f)

/-- A running step runs `i` exactly when `(b0 << 8) | b1` of the bytes at PC and PC + 1 decodes to `i`, and fails with
`UnknownOpcode` and that word exactly when it decodes to nothing (R52, R153). That PC may be odd is the spec's decision D14
(R54, log 19). -/
def Obligations.FetchReadsBigEndianWord : Prop :=
  ∀ s : State, s.drv = .running → s.pc.toNat ≤ 0xFFE →
    ∀ w : Word, w = (memRead s.mem s.pc.toNat).setWidth 16 <<< 8 ||| (memRead s.mem (s.pc.toNat + 1)).setWidth 16 →
      (∀ i, Runs s i ↔ decode w = .instr i) ∧
      (step s = .fault (.unknownOpcode w) ↔ decode w = .unknownOpcode w)

/-- A step fails exactly in these cases, each with this error: the fetch reaches above 0xFFF, the word decodes to nothing,
or the instruction's own check fails; a waiting step never fails (R56, R153 to R156, R158, R161; payloads by D13, order by
D27). -/
def Obligations.StepFaultsExactly : Prop :=
  ∀ (s : State) (f : Fault), step s = .fault f ↔
    s.drv = .running ∧
    ((0xFFF ≤ s.pc.toNat ∧ f = .outOfBounds (if s.pc.toNat = 0xFFF then 0x1000 else s.pc.toNat)) ∨
     (s.pc.toNat ≤ 0xFFE ∧ decode (wordAt s.mem s.pc.toNat) = .unknownOpcode (wordAt s.mem s.pc.toNat) ∧
        f = .unknownOpcode (wordAt s.mem s.pc.toNat)) ∨
     (∃ i, Runs s i ∧ OwnError i s f))

/-- Every step answers a next state or one of the spec's errors: no instruction is refused by the model (R74, R97). -/
def Obligations.EveryStepAnswersOrFaults : Prop :=
  ∀ s : State, (∃ t, step s = .next t) ∨ ∃ f, step s = .fault f

/-- After an error the state is the state before the step, and a further step gives the same error whatever keys and
random byte it sees (R93, R94; D12). -/
def Obligations.ErrorsLeaveNoTraceAndRepeat : Prop :=
  ∀ (s : State) (f : Fault), step s = .fault f →
    (∀ (key : Vector Bool 16) (rand : Option Byte) (draws : Nat) (c : Bool),
      step { s with key := key, rand := rand, draws := draws, fbChanged := c } = .fault f) ∧
    (∀ b, transact (.step b) s = (s, .stepErr f))

/-- Both timers tick once in every step that answers, down by one and clamped at 0, after the instruction: so LD DT,Vx
leaves V[x] - 1 (or 0), and any other step one less than before; likewise ST (R92, R166). (`-` is the clamped subtraction of
naturals.) -/
def Obligations.TimersTickEveryAnsweringStep : Prop :=
  ∀ s t : State, step s = .next t →
    (∀ x, Runs s (.ldDTVx x) → t.dt.toNat = (s.v.get x).toNat - 1) ∧
    ((∀ x, ¬Runs s (.ldDTVx x)) → t.dt.toNat = s.dt.toNat - 1) ∧
    (∀ x, Runs s (.ldSTVx x) → t.st.toNat = (s.v.get x).toNat - 1) ∧
    ((∀ x, ¬Runs s (.ldSTVx x)) → t.st.toNat = s.st.toNat - 1)

/-- The delay timer counts steps: k steps after (and with) the step that set it to V[x], none of the later ones writing it,
it is V[x] - k, clamped at 0; and an LD Vz,DT executed by the k-th step after the setting one reads that value, whatever the
host does to the keys and the random byte in between (R185). -/
def Obligations.DelayTimerCountsStepsDown : Prop :=
  ∀ (f : Nat → State) (x : RegIdx) (m : Nat),
    Runs (f 0) (.ldDTVx x) →
    (∀ k, k ≤ m → ∃ t, step (f k) = .next t ∧ f (k + 1) = { t with key := (f (k + 1)).key, rand := (f (k + 1)).rand }) →
    (∀ k, 1 ≤ k → k ≤ m → ∀ z, ¬Runs (f k) (.ldDTVx z)) →
    (∀ k, 1 ≤ k → k ≤ m + 1 → (f k).dt.toNat = ((f 0).v.get x).toNat - k) ∧
    (∀ k, 1 ≤ k → k ≤ m → ∀ z, Runs (f k) (.ldVxDT z) → ((f (k + 1)).v.get z).toNat = ((f 0).v.get x).toNat - k)

/-- Where PC is after any step that answers: unchanged by a waiting step; past the instruction, by 2, when it neither skips
nor overwrites PC; a skip adds 2 more or nothing; JP and CALL leave nnn, JP V0 leaves nnn + V0, RET the entry it pops (R24,
R87, R88, R108, R112, R113, R114, R119). -/
def Obligations.PcAfterEveryStep : Prop :=
  ∀ s t : State, step s = .next t →
    ((∃ x, s.drv = .waitingForKey x) → t.pc = s.pc) ∧
    (∀ i, Runs s i → i.jumps = false → i.skips = false → t.pc.toNat = s.pc.toNat + 2) ∧
    (∀ i, Runs s i → i.skips = true → t.pc.toNat = s.pc.toNat + 2 ∨ t.pc.toNat = s.pc.toNat + 4) ∧
    (∀ nnn : Addr12, Runs s (.jp nnn) ∨ Runs s (.call nnn) → t.pc.toNat = nnn.toNat) ∧
    (∀ nnn : Addr12, Runs s (.jpV0 nnn) → t.pc.toNat = nnn.toNat + (s.v.get 0).toNat) ∧
    (Runs s .ret → ∃ k : Fin 16, s.sp.val = k.val + 1 ∧ t.pc = s.stack.get k)

/-! ### The key wait -/

/-- LD Vx,K: the driver waits for a key and nothing else changes; the whole step leaves PC past the instruction (R149, R91). -/
def Obligations.LdVxKEntersTheWait : Prop :=
  Encodes 0xF0FF 0xF00A (fun w => .ldVxK (fieldX w)) ∧
  (∀ (s : State) (x : RegIdx), ∃ t, exec (.ldVxK x) s = .next t ∧ t.drv = .waitingForKey x ∧ t = { s with drv := t.drv }) ∧
  (∀ (s : State) (x : RegIdx), Runs s (.ldVxK x) →
    ∃ t, step s = .next t ∧ t.drv = .waitingForKey x ∧ t.pc.toNat = s.pc.toNat + 2 ∧ t.v = s.v ∧
      t.dt.toNat = s.dt.toNat - 1 ∧ t.st.toNat = s.st.toNat - 1)

/-- A waiting step with a key pressed writes the number of the lowest-indexed pressed key to V[x] and goes back to
`Running`; PC does not move, no key is released, the timers tick, `fb_changed` is false, and no other state of the block
changes (R85, R87; the test is of the level, D26). That the step also empties `rand` and advances `draws`, the model's own
fields, is the model's choice (log 2), and so is holding `fb_changed` in a field (log 3). -/
def Obligations.WaitEndsWithLowestPressedKey : Prop :=
  ∀ (s : State) (x k : RegIdx), s.drv = .waitingForKey x → s.key.get k = true → (∀ j, j < k → s.key.get j = false) →
    ∃ t, step s = .next t ∧ (t.v.get x).toNat = k.val ∧ (∀ r, r ≠ x → t.v.get r = s.v.get r) ∧
      t.dt.toNat = s.dt.toNat - 1 ∧ t.st.toNat = s.st.toNat - 1 ∧
      t = { s with v := t.v, drv := .running, dt := t.dt, st := t.st, rand := none, draws := s.draws + 1,
                   fbChanged := false }

/-- A waiting step with no key pressed remains waiting, ticks the timers and changes no other state of the block;
`fb_changed` is false (R88). That the step also empties `rand` and advances `draws`, the model's own fields, is the model's
choice (log 2), and so is holding `fb_changed` in a field (log 3). -/
def Obligations.WaitWithoutKeyOnlyTicks : Prop :=
  ∀ (s : State) (x : RegIdx), s.drv = .waitingForKey x → (∀ k, s.key.get k = false) →
    ∃ t, step s = .next t ∧ t.dt.toNat = s.dt.toNat - 1 ∧ t.st.toNat = s.st.toNat - 1 ∧
      t = { s with dt := t.dt, st := t.st, rand := none, draws := s.draws + 1, fbChanged := false }

/-- A key read takes its own step and at least one more, even when a key is already pressed: the first step writes no
register, the second writes the key's number (R186). -/
def Obligations.KeyReadTakesTwoSteps : Prop :=
  ∀ (s : State) (x k : RegIdx), Runs s (.ldVxK x) → s.key.get k = true → (∀ j, j < k → s.key.get j = false) →
    ∃ t u, step s = .next t ∧ t.v = s.v ∧ step t = .next u ∧ (u.v.get x).toNat = k.val ∧ u.drv = .running ∧
      u.pc.toNat = s.pc.toNat + 2

/-! ### Display (spec/41_display.md) -/

/-- CLS turns every pixel off and reports `fb_changed`; nothing else changes (R100). -/
def Obligations.ClsTurnsEveryPixelOff : Prop :=
  Encodes 0xF00F 0x0000 (fun _ => .cls) ∧
  ∀ s : State, ∃ t, exec .cls s = .next t ∧ (∀ x y, fbGet t.fb x y = false) ∧ t.fbChanged = true ∧
    t = { s with fb := t.fb, fbChanged := t.fbChanged }

/-- DRW, pixel by pixel. In range, a pixel on the screen under a set sprite bit is turned on (`FORCE_ON`) or toggled (`XOR`),
every other pixel stays, VF is 1 exactly when such a bit met a pixel that was on, and nothing else changes; out of range
(which n = 0 never is) it raises `OutOfBounds` (R101 to R106; D8, D11, D13, D17). -/
def Obligations.DrwDrawsPixelByPixel : Prop :=
  Encodes 0xF000 0xD000 (fun w => .drw (fieldX w) (fieldY w) (fieldN w)) ∧
  (∀ (s : State) (x y : RegIdx) (n : Nat), n = 0 ∨ s.i.toNat + n - 1 ≤ 0xFFF →
    ∃ t, exec (.drw x y n) s = .next t ∧
      (∀ px py, SpriteBit s x y n px py → s.cfg.drawMode = .forceOn → fbGet t.fb px py = true) ∧
      (∀ px py, SpriteBit s x y n px py → s.cfg.drawMode = .xor → fbGet t.fb px py = !fbGet s.fb px py) ∧
      (∀ px py, ¬SpriteBit s x y n px py → fbGet t.fb px py = fbGet s.fb px py) ∧
      ((∃ px py, SpriteBit s x y n px py ∧ fbGet s.fb px py = true) → t.v.get 15 = 1) ∧
      ((¬∃ px py, SpriteBit s x y n px py ∧ fbGet s.fb px py = true) → t.v.get 15 = 0) ∧
      (∀ r, r ≠ 15 → t.v.get r = s.v.get r) ∧ t.fbChanged = true ∧
      t = { s with fb := t.fb, v := t.v, fbChanged := t.fbChanged }) ∧
  (∀ (s : State) (x y : RegIdx) (n : Nat), 0 < n → 0xFFF < s.i.toNat + n - 1 →
    exec (.drw x y n) s = .fault (.outOfBounds (max s.i.toNat 0x1000)))

/-- Drawing the same sprite again at the same place: in `XOR` the pixels are restored; in `FORCE_ON` they stay, and the second
DRW sets VF exactly when the sprite has any set, unclipped bit (R107). -/
def Obligations.DrawingTwice : Prop :=
  ∀ (s : State) (x y : RegIdx) (n : Nat), x ≠ 15 → y ≠ 15 → n = 0 ∨ s.i.toNat + n - 1 ≤ 0xFFF →
    ∃ t u, exec (.drw x y n) s = .next t ∧ exec (.drw x y n) t = .next u ∧
      (s.cfg.drawMode = .xor → u.fb = s.fb) ∧
      (s.cfg.drawMode = .forceOn → u.fb = t.fb ∧ (u.v.get 15 = 1 ↔ ∃ px py, SpriteBit s x y n px py))

/-- In `FORCE_ON`, a step that turns a pixel off executed CLS: "A DRW never turns a pixel off; only CLS does." (R105, D11) -/
def Obligations.OnlyClsTurnsPixelsOff : Prop :=
  ∀ (s t : State) (px py : Nat), s.cfg.drawMode = .forceOn → step s = .next t → fbGet s.fb px py = true →
    fbGet t.fb px py = false → Runs s .cls

/-- A step reports `fb_changed` exactly when it executed CLS or DRW, and any other step leaves the framebuffer as it was;
the outcome of a step carries that flag and the timers after the tick (R33, R46, R95, R99; D15, D16). -/
def Obligations.OnlyClsAndDrwWriteTheFramebuffer : Prop :=
  (∀ s t : State, step s = .next t →
    (t.fbChanged = true ↔ Runs s .cls ∨ ∃ x y n, Runs s (.drw x y n)) ∧ (t.fbChanged = false → t.fb = s.fb)) ∧
  (∀ (s t : State) (b : Byte), step (supplyRand s b) = .next t →
    transact (.step b) s = (t, .stepOk { fbChanged := t.fbChanged, dt := t.dt, st := t.st }))

/-! ### Control flow (spec/42_flow.md) -/

/-- RET: with an entry on the stack, SP goes down by one and PC is the popped entry, which stays in its slot; with none it
raises `StackUnderflow` (R112). -/
def Obligations.RetPopsTheReturnAddress : Prop :=
  Encodes 0xF00F 0x000E (fun _ => .ret) ∧
  (∀ (s : State) (k : Fin 16), s.sp.val = k.val + 1 →
    ∃ t, exec .ret s = .next t ∧ t.sp.val = k.val ∧ t.pc = s.stack.get k ∧ t = { s with sp := t.sp, pc := t.pc }) ∧
  (∀ s : State, s.sp.val = 0 → exec .ret s = .fault .stackUnderflow)

/-- JP: PC is the zero-extended nnn and nothing else changes. Its corner cases: a jump to its own address comes back to it
with the timers ticking, and a jump to 0xFFF fails at the next fetch (R113). -/
def Obligations.JpSetsPc : Prop :=
  Encodes 0xF000 0x1000 (fun w => .jp (fieldNNN w)) ∧
  (∀ (s : State) (nnn : Addr12), ∃ t, exec (.jp nnn) s = .next t ∧ t.pc.toNat = nnn.toNat ∧ t = { s with pc := t.pc }) ∧
  (∀ (s : State) (nnn : Addr12), Runs s (.jp nnn) → nnn.toNat = s.pc.toNat →
    ∃ t, step s = .next t ∧ Runs t (.jp nnn) ∧ t.pc = s.pc ∧ t.dt.toNat = s.dt.toNat - 1 ∧ t.st.toNat = s.st.toNat - 1) ∧
  (∀ s : State, Runs s (.jp 0xFFF) → ∃ t, step s = .next t ∧ step t = .fault (.outOfBounds 0x1000))

/-- CALL: with room on the stack, the address after the CALL goes to the next free slot, SP goes up by one and PC is nnn;
with 16 entries it raises `StackOverflow` (R114). -/
def Obligations.CallPushesTheReturnAddress : Prop :=
  Encodes 0xF000 0x2000 (fun w => .call (fieldNNN w)) ∧
  (∀ (s : State) (nnn : Addr12) (k : Fin 16), s.sp.val = k.val →
    ∃ t, exec (.call nnn) s = .next t ∧ t.sp.val = k.val + 1 ∧ t.stack.get k = s.pc ∧
      (∀ j, j ≠ k → t.stack.get j = s.stack.get j) ∧ t.pc.toNat = nnn.toNat ∧
      t = { s with sp := t.sp, stack := t.stack, pc := t.pc }) ∧
  (∀ (s : State) (nnn : Addr12), s.sp.val = 16 → exec (.call nnn) s = .fault .stackOverflow)

/-- CALL then RET, with any instructions in between that leave the stack as the CALL left it: PC is again what it was when the
CALL ran, and so is SP (R112, R114). -/
def Obligations.RetUndoesCall : Prop :=
  ∀ (s : State) (nnn : Addr12), s.sp.val < 16 →
    ∃ t, exec (.call nnn) s = .next t ∧
      ∀ u : State, u.sp = t.sp → u.stack = t.stack → ∃ r, exec .ret u = .next r ∧ r.pc = s.pc ∧ r.sp = s.sp

/-- Calls nest as deep as there are free slots and no deeper: from an empty stack sixteen CALLs succeed and the seventeenth
raises `StackOverflow` (R120). -/
def Obligations.SixteenCallsNest : Prop :=
  ∀ (s : State) (as : List Addr12), s.sp.val + as.length ≤ 16 →
    ∃ t, execAll (as.map .call) s = .next t ∧ t.sp.val = s.sp.val + as.length ∧
      (s.sp.val + as.length = 16 → ∀ a, exec (.call a) t = .fault .stackOverflow)

/-- The four register-compare skips: PC moves on by 2 exactly when the comparison holds, and nothing else changes (R115 to
R118). -/
def Obligations.CompareSkips : Prop :=
  Encodes 0xF000 0x3000 (fun w => .seByte (fieldX w) (fieldKK w)) ∧
  Encodes 0xF000 0x4000 (fun w => .sneByte (fieldX w) (fieldKK w)) ∧
  Encodes 0xF000 0x5000 (fun w => .seReg (fieldX w) (fieldY w)) ∧
  Encodes 0xF000 0x9000 (fun w => .sneReg (fieldX w) (fieldY w)) ∧
  ∀ (s : State) (x y : RegIdx) (kk : Byte),
    exec (.seByte x kk) s = .next { s with pc := if s.v.get x = kk then s.pc + 2 else s.pc } ∧
    exec (.sneByte x kk) s = .next { s with pc := if s.v.get x = kk then s.pc else s.pc + 2 } ∧
    exec (.seReg x y) s = .next { s with pc := if s.v.get x = s.v.get y then s.pc + 2 else s.pc } ∧
    exec (.sneReg x y) s = .next { s with pc := if s.v.get x = s.v.get y then s.pc else s.pc + 2 }

/-- JP V0: PC is nnn + V0 as naturals, with no wrap, and nothing else changes; a target at 0xFFF or above fails with
`OutOfBounds` at the next fetch, not in the jump's step (R119). -/
def Obligations.JpV0AddsV0 : Prop :=
  Encodes 0xF000 0xB000 (fun w => .jpV0 (fieldNNN w)) ∧
  (∀ (s : State) (nnn : Addr12), ∃ t, exec (.jpV0 nnn) s = .next t ∧ t.pc.toNat = nnn.toNat + (s.v.get 0).toNat ∧
    t.pc.toNat ≤ 0x10FE ∧ t = { s with pc := t.pc }) ∧
  (∀ (s : State) (nnn : Addr12), Runs s (.jpV0 nnn) → 0xFFF ≤ nnn.toNat + (s.v.get 0).toNat →
    ∃ t a, step s = .next t ∧ step t = .fault (.outOfBounds a))

/-! ### Arithmetic and logic (spec/43_alu.md) -/

/-- LD Vx,byte and ADD Vx,byte: the result, modulo 256, to V[x]; no flag, no other change (R123, R124). -/
def Obligations.ByteLoadAndAdd : Prop :=
  Encodes 0xF000 0x6000 (fun w => .ldByte (fieldX w) (fieldKK w)) ∧
  Encodes 0xF000 0x7000 (fun w => .addByte (fieldX w) (fieldKK w)) ∧
  ∀ (s : State) (x : RegIdx) (kk : Byte),
    (∃ t, exec (.ldByte x kk) s = .next t ∧ t.v.get x = kk ∧ (∀ r, r ≠ x → t.v.get r = s.v.get r) ∧
      t = { s with v := t.v }) ∧
    (∃ t, exec (.addByte x kk) s = .next t ∧ (t.v.get x).toNat = ((s.v.get x).toNat + kk.toNat) % 256 ∧
      (∀ r, r ≠ x → t.v.get r = s.v.get r) ∧ t = { s with v := t.v })

/-- LD Vx,Vy and the bitwise operations, bit by bit; no flag, no other change (R125 to R128). -/
def Obligations.CopyAndBitwise : Prop :=
  Encodes 0xF00F 0x8000 (fun w => .ldReg (fieldX w) (fieldY w)) ∧
  Encodes 0xF00F 0x8001 (fun w => .orReg (fieldX w) (fieldY w)) ∧
  Encodes 0xF00F 0x8002 (fun w => .andReg (fieldX w) (fieldY w)) ∧
  Encodes 0xF00F 0x8003 (fun w => .xorReg (fieldX w) (fieldY w)) ∧
  ∀ (s : State) (x y : RegIdx),
    (∃ t, exec (.ldReg x y) s = .next t ∧ t.v.get x = s.v.get y ∧ (∀ r, r ≠ x → t.v.get r = s.v.get r) ∧
      t = { s with v := t.v }) ∧
    (∃ t, exec (.orReg x y) s = .next t ∧
      (∀ k, (t.v.get x).getLsbD k = ((s.v.get x).getLsbD k || (s.v.get y).getLsbD k)) ∧
      (∀ r, r ≠ x → t.v.get r = s.v.get r) ∧ t = { s with v := t.v }) ∧
    (∃ t, exec (.andReg x y) s = .next t ∧
      (∀ k, (t.v.get x).getLsbD k = ((s.v.get x).getLsbD k && (s.v.get y).getLsbD k)) ∧
      (∀ r, r ≠ x → t.v.get r = s.v.get r) ∧ t = { s with v := t.v }) ∧
    (∃ t, exec (.xorReg x y) s = .next t ∧
      (∀ k, (t.v.get x).getLsbD k = ((s.v.get x).getLsbD k ^^ (s.v.get y).getLsbD k)) ∧
      (∀ r, r ≠ x → t.v.get r = s.v.get r) ∧ t = { s with v := t.v })

/-- ADD, SUB and SUBN on registers: the result modulo 256; the carry is 1 iff the sum exceeds 255, the NOT-borrow 1 iff the
first operand is strictly greater; operands are read before any write (R129, R130, R132). For x = 0xF the value kept is
VF_WRITE_ORDER's (D10). -/
def Obligations.AddSubSubnWithFlag : Prop :=
  Encodes 0xF00F 0x8004 (fun w => .addReg (fieldX w) (fieldY w)) ∧
  Encodes 0xF00F 0x8005 (fun w => .subReg (fieldX w) (fieldY w)) ∧
  Encodes 0xF00F 0x8007 (fun w => .subnReg (fieldX w) (fieldY w)) ∧
  ∀ x y : RegIdx,
    AnswersFlagged (.addReg x y) x (fun s => ((s.v.get x).toNat + (s.v.get y).toNat) % 256)
      (fun s => if (s.v.get x).toNat + (s.v.get y).toNat > 255 then 1 else 0) ∧
    AnswersFlagged (.subReg x y) x (fun s => (256 + (s.v.get x).toNat - (s.v.get y).toNat) % 256)
      (fun s => if (s.v.get x).toNat > (s.v.get y).toNat then 1 else 0) ∧
    AnswersFlagged (.subnReg x y) x (fun s => (256 + (s.v.get y).toNat - (s.v.get x).toNat) % 256)
      (fun s => if (s.v.get y).toNat > (s.v.get x).toNat then 1 else 0)

/-- SHR and SHL: half and double of V[x], the flag the bit shifted out; every value of the y field is the same instruction
(R131, R133). For x = 0xF the value kept is VF_WRITE_ORDER's (D10). -/
def Obligations.ShiftsByOneWithFlag : Prop :=
  Encodes 0xF00F 0x8006 (fun w => .shr (fieldX w)) ∧
  Encodes 0xF00F 0x800E (fun w => .shl (fieldX w)) ∧
  ∀ x : RegIdx,
    AnswersFlagged (.shr x) x (fun s => (s.v.get x).toNat / 2) (fun s => (s.v.get x).toNat % 2) ∧
    AnswersFlagged (.shl x) x (fun s => 2 * (s.v.get x).toNat % 256) (fun s => (s.v.get x).toNat / 128)

/-- RND: V[x] is the step's random byte masked by kk; the byte is the one the host supplied, whichever it is, and otherwise a
free value, the same for every kk and x (R134; D23; the free value is the model's form of it, log 2). -/
def Obligations.RndMasksTheRandomByte : Prop :=
  Encodes 0xF000 0xC000 (fun w => .rnd (fieldX w) (fieldKK w)) ∧
  ∀ s : State, ∃ r : Byte, (∀ b, s.rand = some b → r = b) ∧
    ∀ (x : RegIdx) (kk : Byte), ∃ t, exec (.rnd x kk) s = .next t ∧ t.v.get x = r &&& kk ∧
      (∀ q, q ≠ x → t.v.get q = s.v.get q) ∧ t = { s with v := t.v }

/-- The random byte is "used only if that step executes RND": any other step is the same for every input (R45). -/
def Obligations.OnlyRndReadsTheRandomByte : Prop :=
  ∀ s : State, (∀ x kk, ¬Runs s (.rnd x kk)) → ∀ a b : Option Byte, step { s with rand := a } = step { s with rand := b }

/-! ### Index and memory (spec/44_index_memory.md) -/

/-- LD I,addr and LD F,Vx: I is nnn, or 0x050 + 5 * V[x] with the whole of V[x]; nothing else changes (R138, R140). -/
def Obligations.IndexLoads : Prop :=
  Encodes 0xF000 0xA000 (fun w => .ldI (fieldNNN w)) ∧
  Encodes 0xF0FF 0xF029 (fun w => .ldF (fieldX w)) ∧
  ∀ s : State,
    (∀ nnn : Addr12, ∃ t, exec (.ldI nnn) s = .next t ∧ t.i.toNat = nnn.toNat ∧ t = { s with i := t.i }) ∧
    (∀ x : RegIdx, ∃ t, exec (.ldF x) s = .next t ∧ t.i.toNat = 0x050 + 5 * (s.v.get x).toNat ∧ t = { s with i := t.i })

/-- ADD I,Vx: I is (I + V[x]) mod 2^16, unmasked; VF and everything else stay (R139; the wrap and no masking are D5). -/
def Obligations.AddIndexWraps : Prop :=
  Encodes 0xF0FF 0xF01E (fun w => .addI (fieldX w)) ∧
  ∀ (s : State) (x : RegIdx), ∃ t, exec (.addI x) s = .next t ∧
    t.i.toNat = (s.i.toNat + (s.v.get x).toNat) % 65536 ∧ t = { s with i := t.i }

/-- LD B,Vx: the three decimal digits of V[x] at I, I+1, I+2, every other byte and everything else unchanged; out of range it
raises `OutOfBounds` (R141; the payload is D13). -/
def Obligations.BcdStoresThreeDigits : Prop :=
  Encodes 0xF0FF 0xF033 (fun w => .ldB (fieldX w)) ∧
  (∀ (s : State) (x : RegIdx), s.i.toNat + 2 ≤ 0xFFF →
    ∃ t, exec (.ldB x) s = .next t ∧
      (memRead t.mem (indexAddr s 0)).toNat = (s.v.get x).toNat / 100 ∧
      (memRead t.mem (indexAddr s 1)).toNat = (s.v.get x).toNat / 10 % 10 ∧
      (memRead t.mem (indexAddr s 2)).toNat = (s.v.get x).toNat % 10 ∧
      (∀ a, a < indexAddr s 0 ∨ indexAddr s 2 < a → memRead t.mem a = memRead s.mem a) ∧
      t = { s with mem := t.mem }) ∧
  (∀ (s : State) (x : RegIdx), 0xFFF < s.i.toNat + 2 →
    exec (.ldB x) s = .fault (.outOfBounds (max s.i.toNat 0x1000)))

/-- LD [I],Vx: V[k] at I + k for k = 0..x, every other byte and everything else unchanged, I included; out of range it raises
`OutOfBounds` (R142; the payload is D13). -/
def Obligations.RegisterStore : Prop :=
  Encodes 0xF0FF 0xF055 (fun w => .ldMemVx (fieldX w)) ∧
  (∀ (s : State) (x : RegIdx), s.i.toNat + x.val ≤ 0xFFF →
    ∃ t, exec (.ldMemVx x) s = .next t ∧
      (∀ k : RegIdx, k ≤ x → memRead t.mem (indexAddr s k.val) = s.v.get k) ∧
      (∀ a, a < indexAddr s 0 ∨ indexAddr s x.val < a → memRead t.mem a = memRead s.mem a) ∧
      t = { s with mem := t.mem }) ∧
  (∀ (s : State) (x : RegIdx), 0xFFF < s.i.toNat + x.val →
    exec (.ldMemVx x) s = .fault (.outOfBounds (max s.i.toNat 0x1000)))

/-- LD Vx,[I]: V[k] is the byte at I + k for k = 0..x, registers above x and everything else unchanged; out of range it raises
`OutOfBounds` and no register is written (R143; the payload is D13). -/
def Obligations.RegisterLoad : Prop :=
  Encodes 0xF0FF 0xF065 (fun w => .ldVxMem (fieldX w)) ∧
  (∀ (s : State) (x : RegIdx), s.i.toNat + x.val ≤ 0xFFF →
    ∃ t, exec (.ldVxMem x) s = .next t ∧
      (∀ k : RegIdx, k ≤ x → t.v.get k = memRead s.mem (indexAddr s k.val)) ∧
      (∀ k : RegIdx, x < k → t.v.get k = s.v.get k) ∧ t = { s with v := t.v }) ∧
  (∀ (s : State) (x : RegIdx), 0xFFF < s.i.toNat + x.val →
    exec (.ldVxMem x) s = .fault (.outOfBounds (max s.i.toNat 0x1000)))

/-- Registers stored by LD [I],Vx come back by LD Vx,[I] from any later state with the same I and the same stored bytes,
whatever happened to the registers in between (R144). -/
def Obligations.StoreThenLoadRestores : Prop :=
  ∀ (s : State) (x : RegIdx), s.i.toNat + x.val ≤ 0xFFF →
    ∃ t, exec (.ldMemVx x) s = .next t ∧
      ∀ u : State, u.i = t.i → (∀ k, k ≤ x.val → memRead u.mem (s.i.toNat + k) = memRead t.mem (s.i.toNat + k)) →
        ∃ r, exec (.ldVxMem x) u = .next r ∧ ∀ k : RegIdx, k ≤ x → r.v.get k = s.v.get k

/-- A stored word is what a later fetch of its address decodes, with nothing in between: after LD [I],Vx with x >= 1, a step
at PC = I runs the instruction V0, V1 spell (R66, R188). -/
def Obligations.StoredCodeIsFetched : Prop :=
  ∀ (s : State) (x : RegIdx), 1 ≤ x.val → s.i.toNat + x.val ≤ 0xFFF →
    ∃ t, exec (.ldMemVx x) s = .next t ∧
      ∀ (u : State) (i : Instr), u.mem = t.mem → u.drv = .running → u.pc = s.i →
        decode (wordOfBytes (s.v.get 0) (s.v.get 1)) = .instr i → Runs u i

/-! ### Keys and timers (spec/45_keys_timers.md) -/

/-- SKP and SKNP: a key value 0..15 is looked up in the key flags, and PC moves on by 2 when the key is pressed (SKP) or
released (SKNP); a value above 15 is never pressed (R146, R147; D7 for values above 15). Nothing else changes. -/
def Obligations.KeySkips : Prop :=
  Encodes 0xF0FF 0xE09E (fun w => .skp (fieldX w)) ∧
  Encodes 0xF0FF 0xE0A1 (fun w => .sknp (fieldX w)) ∧
  ∀ (s : State) (x : RegIdx),
    (∀ k : RegIdx, (s.v.get x).toNat = k.val →
      exec (.skp x) s = .next { s with pc := if s.key.get k = true then s.pc + 2 else s.pc } ∧
      exec (.sknp x) s = .next { s with pc := if s.key.get k = true then s.pc else s.pc + 2 }) ∧
    (16 ≤ (s.v.get x).toNat →
      exec (.skp x) s = .next s ∧ exec (.sknp x) s = .next { s with pc := s.pc + 2 })

/-- The timer moves: LD Vx,DT reads DT before the step's tick, LD DT,Vx and LD ST,Vx write before it, so that the whole step
leaves V[x] - 1, or 0; nothing else changes (R148, R150, R151). -/
def Obligations.TimerMoves : Prop :=
  Encodes 0xF0FF 0xF007 (fun w => .ldVxDT (fieldX w)) ∧
  Encodes 0xF0FF 0xF015 (fun w => .ldDTVx (fieldX w)) ∧
  Encodes 0xF0FF 0xF018 (fun w => .ldSTVx (fieldX w)) ∧
  (∀ (s : State) (x : RegIdx),
    (∃ t, exec (.ldVxDT x) s = .next t ∧ t.v.get x = s.dt ∧ (∀ r, r ≠ x → t.v.get r = s.v.get r) ∧
      t = { s with v := t.v }) ∧
    (∃ t, exec (.ldDTVx x) s = .next t ∧ t.dt = s.v.get x ∧ t = { s with dt := t.dt }) ∧
    (∃ t, exec (.ldSTVx x) s = .next t ∧ t.st = s.v.get x ∧ t = { s with st := t.st })) ∧
  (∀ (s : State) (x : RegIdx),
    (Runs s (.ldVxDT x) → ∃ t, step s = .next t ∧ t.v.get x = s.dt ∧ t.dt.toNat = s.dt.toNat - 1) ∧
    (Runs s (.ldDTVx x) → ∃ t, step s = .next t ∧ t.dt.toNat = (s.v.get x).toNat - 1) ∧
    (Runs s (.ldSTVx x) → ∃ t, step s = .next t ∧ t.st.toNat = (s.v.get x).toNat - 1))

/-- No instruction reads ST: with another value in it a step answers the same but for ST, or fails the same; the host sees ST
in the outcome of a step and in the register snapshot (R31, R151; the outcome's value is the one after the tick, D16). -/
def Obligations.SoundTimerIsReadByTheHostOnly : Prop :=
  (∀ (s : State) (b : Byte),
    (∀ t, step s = .next t → ∃ u, step { s with st := b } = .next u ∧ u = { t with st := u.st }) ∧
    (∀ f, step s = .fault f → step { s with st := b } = .fault f)) ∧
  (∀ (s t : State) (r : Byte), step (supplyRand s r) = .next t →
    ∃ o, transact (.step r) s = (t, .stepOk o) ∧ o.st = t.st) ∧
  (∀ s : State, ∃ r, transact .registerSnapshot s = (s, .registers r) ∧ r.sound = s.st)

/-! ### Who writes what, over all instructions -/

/-- A step changes V[r] only if it ends a wait for register r, or executes an instruction that R21 lists as a writer of V[r]:
"No other instruction writes a general register." -/
def Obligations.GeneralRegisterWriters : Prop :=
  ∀ (s t : State) (r : RegIdx), step s = .next t → t.v.get r ≠ s.v.get r →
    s.drv = .waitingForKey r ∨ ∃ i, Runs s i ∧ i.writesV r = true

/-- A step changes a byte of memory only if it executes LD B,Vx or LD [I],Vx, and then only inside their range (R53). -/
def Obligations.MemoryWriters : Prop :=
  ∀ (s t : State) (a : Nat), step s = .next t → memRead t.mem a ≠ memRead s.mem a →
    (∃ x, Runs s (.ldB x) ∧ indexAddr s 0 ≤ a ∧ a ≤ indexAddr s 2) ∨
    (∃ x : RegIdx, Runs s (.ldMemVx x) ∧ indexAddr s 0 ≤ a ∧ a ≤ indexAddr s x.val)

/-- The writers of the single registers: I by LD I, ADD I and LD F; SP and the stack by CALL, one up, and SP by RET, one down; the
driver's state by LD Vx,K, into the wait, and by a waiting step, out of it (R28, R29, R30, R86). -/
def Obligations.SingleRegisterWriters : Prop :=
  ∀ s t : State, step s = .next t →
    (t.i ≠ s.i → (∃ a, Runs s (.ldI a)) ∨ ∃ x, Runs s (.addI x) ∨ Runs s (.ldF x)) ∧
    (t.sp ≠ s.sp → ((∃ a, Runs s (.call a)) ∧ t.sp.val = s.sp.val + 1) ∨ (Runs s .ret ∧ t.sp.val + 1 = s.sp.val)) ∧
    (t.stack ≠ s.stack → ∃ a, Runs s (.call a)) ∧
    (t.drv ≠ s.drv → (∃ x, Runs s (.ldVxK x) ∧ t.drv = .waitingForKey x) ∨
      (t.drv = .running ∧ ∃ k, s.key.get k = true))

/-- The block never writes the keys or its parameters; among the host's transactions only `setKey` and `reset` change a key
(R32, R178). -/
def Obligations.OnlyTheHostWritesKeys : Prop :=
  (∀ s t : State, step s = .next t → t.key = s.key ∧ t.cfg = s.cfg) ∧
  (∀ (a : Transaction) (s : State), a ≠ .reset → (∀ k p, a ≠ .setKey k p) → (transact a s).1.key = s.key) ∧
  (∀ (a : Transaction) (s : State), (transact a s).1.cfg = s.cfg)

/-- The keys are read by SKP, SKNP and the wait only: a running step that executes neither is the same for all keys (R32). -/
def Obligations.OnlyKeyInstructionsReadKeys : Prop :=
  ∀ (s : State) (key : Vector Bool 16), s.drv = .running → (∀ x, ¬Runs s (.skp x)) → (∀ x, ¬Runs s (.sknp x)) →
    step { s with key := key } = mapNext (fun t => { t with key := key }) (step s)

/-! ### Invariants -/

/-- The state after reset meets the machine's invariant. -/
def Obligations.ResetMeetsTheInvariant : Prop := State.reset.Inv

/-- Every step keeps the machine's invariant: memory stays in canonical form, PC stays at most 0x10FE and every stacked
return address at most 0x1000 (R26, R41). -/
def Obligations.StepKeepsTheInvariant : Prop :=
  ∀ s t : State, s.Inv → step s = .next t → t.Inv

/-- Whatever the host does to a new block, in any order, the invariant holds (R26, R41, R69). -/
def Obligations.ReachableStatesMeetTheInvariant : Prop :=
  ∀ s : State, Reachable s → s.Inv

/-- A new block of any parameters meets the invariant, and every transaction of the host, from every state that meets it,
leaves one that meets it: reset, load, a step that answers or errs, setKey, both snapshots (R26, R41, R42). -/
def Obligations.TransactionsKeepTheInvariant : Prop :=
  (∀ c : Config, (newBlock c).Inv) ∧ ∀ (a : Transaction) (s : State), s.Inv → (transact a s).1.Inv

/-! ### The host's transactions (spec/70_reset_and_hazards.md) -/

/-- `reset()` in any state: every piece of state has its value of R39, whatever was loaded, waiting or failing before; the
parameters stay (R39, R173, R174; the zeros are D2 and D18, the font bytes D9). -/
def Obligations.ResetFromAnyState : Prop :=
  ∀ s : State, ∃ t, transact .reset s = (t, .done) ∧
    t.pc = 0x200 ∧ (∀ r, t.v.get r = 0) ∧ t.i = 0 ∧ t.sp = 0 ∧ (∀ k, t.stack.get k = 0) ∧ t.dt = 0 ∧ t.st = 0 ∧
    (∀ k, t.key.get k = false) ∧ (∀ x y, fbGet t.fb x y = false) ∧ t.drv = .running ∧ t.cfg = s.cfg ∧
    (∀ a, memRead t.mem a =
      if 0x050 ≤ a ∧ a ≤ 0x09F then s.cfg.font.toList.getD (a - 0x050) 0 else 0)

/-- `load(bytes)` of at most 3584 bytes copies them verbatim to 0x200 on and changes nothing else; of more, it is rejected with
their number and writes nothing (R175, R176, R177; D31 for the rejection). -/
def Obligations.LoadCopiesTheRom : Prop :=
  (∀ (s : State) (bytes : List Byte), bytes.length ≤ 3584 →
    ∃ t, transact (.load bytes) s = (t, .done) ∧ (∀ k, k < bytes.length → memRead t.mem (0x200 + k) = bytes.getD k 0) ∧
      (∀ a, a < 0x200 ∨ 0x200 + bytes.length ≤ a → memRead t.mem a = memRead s.mem a) ∧ t = { s with mem := t.mem }) ∧
  (∀ (s : State) (bytes : List Byte), 3584 < bytes.length →
    transact (.load bytes) s = (s, .loadErr (.romTooLarge bytes.length)))

/-- Booting: after reset and load, the first step fetches at 0x200 and runs the instruction the ROM's first two bytes spell
(R182). -/
def Obligations.BootRunsTheRomsFirstWord : Prop :=
  ∀ (s : State) (hi lo : Byte) (rest : List Byte) (i : Instr), rest.length ≤ 3582 →
    decode (wordOfBytes hi lo) = .instr i →
    ∃ t, transact (.load (hi :: lo :: rest)) (transact .reset s).1 = (t, .done) ∧ t.pc = 0x200 ∧ Runs t i

/-- `setKey` sets one key flag and changes nothing else; the framebuffer snapshot lists pixel (x, y) at index 64*y + x; neither
snapshot changes the state (R33, R48, R178, R179). -/
def Obligations.KeysSetAndSnapshotsRead : Prop :=
  (∀ (s : State) (k : RegIdx) (p : Bool), ∃ t, transact (.setKey k p) s = (t, .done) ∧ t.key.get k = p ∧
    (∀ j, j ≠ k → t.key.get j = s.key.get j) ∧ t = { s with key := t.key }) ∧
  (∀ (s : State), ∃ p, transact .framebufferSnapshot s = (s, .pixels p) ∧
    ∀ x y, x < 64 → y < 32 → p.toList.getD (y * 64 + x) false = fbGet s.fb x y) ∧
  (∀ (s : State), ∃ r, transact .registerSnapshot s = (s, .registers r) ∧ r.pc = s.pc ∧ r.i = s.i ∧ r.sp = s.sp ∧
    r.v = s.v ∧ r.delay = s.dt ∧ r.sound = s.st ∧ r.stack = s.stack ∧ r.drv = s.drv)
end

