-- ==== Sys2Proof/Laws/Encoding.lean ====
section
/-!
SUPPORT. The fields of an encoded word, and the nibbles of a masked word.
-/

namespace Sys2Proof

theorem nib1_eq_ofNat (w : Word) : (nib1 w).toNat = w.toNat / 4096 := by
  have := w.isLt
  simp [nib1, BitVec.extractLsb'_toNat, Nat.shiftRight_eq_div_pow]
  omega

theorem nib2_eq_ofNat (w : Word) : (nib2 w).toNat = w.toNat / 256 % 16 := by
  simp [nib2, BitVec.extractLsb'_toNat, Nat.shiftRight_eq_div_pow]

theorem nib3_eq_ofNat (w : Word) : (nib3 w).toNat = w.toNat / 16 % 16 := by
  simp [nib3, BitVec.extractLsb'_toNat, Nat.shiftRight_eq_div_pow]

theorem nib4_eq_ofNat (w : Word) : (nib4 w).toNat = w.toNat % 16 := by
  simp [nib4, BitVec.extractLsb'_toNat]

theorem fieldKK_toNat (w : Word) : (fieldKK w).toNat = w.toNat % 256 := by
  simp [fieldKK, BitVec.extractLsb'_toNat]

theorem fieldNNN_toNat (w : Word) : (fieldNNN w).toNat = w.toNat % 4096 := by
  simp [fieldNNN, BitVec.extractLsb'_toNat]

theorem fieldX_val (w : Word) : (fieldX w).val = w.toNat / 256 % 16 := nib2_eq_ofNat w

theorem fieldY_val (w : Word) : (fieldY w).val = w.toNat / 16 % 16 := nib3_eq_ofNat w

theorem fieldN_eq (w : Word) : fieldN w = w.toNat % 16 := nib4_eq_ofNat w

/-! ### Words as numbers -/

theorem encNNN_toNat (a : BitVec 4) (n : Addr12) : (encNNN a n).toNat = a.toNat * 4096 + n.toNat := by
  have h := Nat.two_pow_add_eq_or_of_lt (i := 12) (show n.toNat < 2 ^ 12 from n.isLt) a.toNat
  simp only [encNNN, BitVec.toNat_append, Nat.shiftLeft_eq]
  rw [Nat.mul_comm, ← h]

theorem encXKK_toNat (a : BitVec 4) (x : RegIdx) (k : Byte) :
    (encXKK a x k).toNat = a.toNat * 4096 + x.val * 256 + k.toNat := by
  have hx : (regBits x).toNat = x.val := rfl
  have h1 := Nat.two_pow_add_eq_or_of_lt (i := 4) (show (regBits x).toNat < 2 ^ 4 from x.isLt) a.toNat
  have h2 := Nat.two_pow_add_eq_or_of_lt (i := 8) (show k.toNat < 2 ^ 8 from k.isLt) (a.toNat * 16 + x.val)
  simp only [encXKK, BitVec.toNat_append, Nat.shiftLeft_eq, hx] at *
  rw [Nat.mul_comm a.toNat, ← h1, Nat.mul_comm _ (2 ^ 8), show 2 ^ 4 * a.toNat = a.toNat * 16 by omega, ← h2]
  omega

theorem encXYN_toNat (a : BitVec 4) (x y : RegIdx) (n : BitVec 4) :
    (encXYN a x y n).toNat = a.toNat * 4096 + x.val * 256 + y.val * 16 + n.toNat := by
  have hx : (regBits x).toNat = x.val := rfl
  have hy : (regBits y).toNat = y.val := rfl
  have h1 := Nat.two_pow_add_eq_or_of_lt (i := 4) (show (regBits x).toNat < 2 ^ 4 from x.isLt) a.toNat
  have h2 := Nat.two_pow_add_eq_or_of_lt (i := 4) (show (regBits y).toNat < 2 ^ 4 from y.isLt) (a.toNat * 16 + x.val)
  have h3 := Nat.two_pow_add_eq_or_of_lt (i := 4) (show n.toNat < 2 ^ 4 from n.isLt)
    (a.toNat * 256 + x.val * 16 + y.val)
  simp only [encXYN, BitVec.toNat_append, Nat.shiftLeft_eq, hx, hy] at *
  rw [Nat.mul_comm a.toNat, ← h1, show (2 ^ 4 * a.toNat + x.val) * 2 ^ 4 = 2 ^ 4 * (a.toNat * 16 + x.val) by omega,
    ← h2, show (2 ^ 4 * (a.toNat * 16 + x.val) + y.val) * 2 ^ 4 = 2 ^ 4 * (a.toNat * 256 + x.val * 16 + y.val) by omega,
    ← h3]
  omega

/-! ### The fields of an encoded word -/

theorem nib1_encNNN (a : BitVec 4) (n : Addr12) : nib1 (encNNN a n) = a := by
  apply BitVec.eq_of_toNat_eq
  have := n.isLt
  rw [nib1_eq_ofNat, encNNN_toNat]; omega

theorem fieldNNN_encNNN (a : BitVec 4) (n : Addr12) : fieldNNN (encNNN a n) = n := by
  apply BitVec.eq_of_toNat_eq
  have := n.isLt
  rw [fieldNNN_toNat, encNNN_toNat]; omega

theorem nib1_encXKK (a : BitVec 4) (x : RegIdx) (k : Byte) : nib1 (encXKK a x k) = a := by
  apply BitVec.eq_of_toNat_eq
  have := k.isLt; have := x.isLt
  rw [nib1_eq_ofNat, encXKK_toNat]; omega

theorem fieldX_encXKK (a : BitVec 4) (x : RegIdx) (k : Byte) : fieldX (encXKK a x k) = x := by
  apply Fin.ext
  have := k.isLt; have := x.isLt; have := a.isLt
  rw [fieldX_val, encXKK_toNat]; omega

theorem fieldKK_encXKK (a : BitVec 4) (x : RegIdx) (k : Byte) : fieldKK (encXKK a x k) = k := by
  apply BitVec.eq_of_toNat_eq
  have := k.isLt; have := x.isLt
  rw [fieldKK_toNat, encXKK_toNat]; omega

theorem nib1_encXYN (a : BitVec 4) (x y : RegIdx) (n : BitVec 4) : nib1 (encXYN a x y n) = a := by
  apply BitVec.eq_of_toNat_eq
  have := n.isLt; have := x.isLt; have := y.isLt
  rw [nib1_eq_ofNat, encXYN_toNat]; omega

theorem fieldX_encXYN (a : BitVec 4) (x y : RegIdx) (n : BitVec 4) : fieldX (encXYN a x y n) = x := by
  apply Fin.ext
  have := n.isLt; have := x.isLt; have := y.isLt
  rw [fieldX_val, encXYN_toNat]; omega

theorem fieldY_encXYN (a : BitVec 4) (x y : RegIdx) (n : BitVec 4) : fieldY (encXYN a x y n) = y := by
  apply Fin.ext
  have := n.isLt; have := x.isLt; have := y.isLt
  rw [fieldY_val, encXYN_toNat]; omega

theorem nib4_encXYN (a : BitVec 4) (x y : RegIdx) (n : BitVec 4) : nib4 (encXYN a x y n) = n := by
  apply BitVec.eq_of_toNat_eq
  have := n.isLt; have := x.isLt; have := y.isLt
  rw [nib4_eq_ofNat, encXYN_toNat]; omega

/-! ### Masks -/

theorem nib1_and (w m : Word) : nib1 (w &&& m) = nib1 w &&& nib1 m := by
  apply BitVec.eq_of_getLsbD_eq; intro i hi; simp [nib1, hi]

theorem nib2_and (w m : Word) : nib2 (w &&& m) = nib2 w &&& nib2 m := by
  apply BitVec.eq_of_getLsbD_eq; intro i hi; simp [nib2, hi]

theorem nib3_and (w m : Word) : nib3 (w &&& m) = nib3 w &&& nib3 m := by
  apply BitVec.eq_of_getLsbD_eq; intro i hi; simp [nib3, hi]

theorem nib4_and (w m : Word) : nib4 (w &&& m) = nib4 w &&& nib4 m := by
  apply BitVec.eq_of_getLsbD_eq; intro i hi; simp [nib4, hi]

theorem fieldKK_and (w m : Word) : fieldKK (w &&& m) = fieldKK w &&& fieldKK m := by
  apply BitVec.eq_of_getLsbD_eq; intro i hi; simp [fieldKK, hi]

/-- Two words with the same four nibbles are equal. -/
theorem word_ext {w u : Word} (h1 : nib1 w = nib1 u) (h2 : nib2 w = nib2 u) (h3 : nib3 w = nib3 u)
    (h4 : nib4 w = nib4 u) : w = u := by
  apply BitVec.eq_of_toNat_eq
  have e1 := congrArg BitVec.toNat h1; have e2 := congrArg BitVec.toNat h2
  have e3 := congrArg BitVec.toNat h3; have e4 := congrArg BitVec.toNat h4
  rw [nib1_eq_ofNat, nib1_eq_ofNat] at e1; rw [nib2_eq_ofNat, nib2_eq_ofNat] at e2
  rw [nib3_eq_ofNat, nib3_eq_ofNat] at e3; rw [nib4_eq_ofNat, nib4_eq_ofNat] at e4
  omega

/-- The low byte from its two nibbles. -/
theorem fieldKK_nibbles (w : Word) : (fieldKK w).toNat = (nib3 w).toNat * 16 + (nib4 w).toNat := by
  rw [fieldKK_toNat, nib3_eq_ofNat, nib4_eq_ofNat]; omega

/-- A word fixed by a mask on its top and bottom nibbles (the shape of R79's 0xF00F rows). -/
theorem mask_F00F {w v : Word} (h : w &&& 0xF00F = v) : nib1 w = nib1 v ∧ nib4 w = nib4 v := by
  have m1 : nib1 0xF00F = 0xF := by decide
  have m4 : nib4 0xF00F = 0xF := by decide
  have e1 := nib1_and w 0xF00F; have e4 := nib4_and w 0xF00F
  rw [h, m1] at e1; rw [h, m4] at e4
  exact ⟨by rw [e1]; exact (BitVec.and_allOnes (x := nib1 w)).symm, by rw [e4]; exact (BitVec.and_allOnes (x := nib4 w)).symm⟩

/-- A word fixed by a mask on its top nibble (the 0xF000 rows). -/
theorem mask_F000 {w v : Word} (h : w &&& 0xF000 = v) : nib1 w = nib1 v := by
  have m1 : nib1 0xF000 = 0xF := by decide
  have e1 := nib1_and w 0xF000
  rw [h, m1] at e1
  rw [e1]; exact (BitVec.and_allOnes (x := nib1 w)).symm

/-- A word fixed by a mask on its top nibble and low byte (the 0xF0FF rows). -/
theorem mask_F0FF {w v : Word} (h : w &&& 0xF0FF = v) : nib1 w = nib1 v ∧ fieldKK w = fieldKK v := by
  have m1 : nib1 0xF0FF = 0xF := by decide
  have mk : fieldKK 0xF0FF = 0xFF := by decide
  have e1 := nib1_and w 0xF0FF; have ek := fieldKK_and w 0xF0FF
  rw [h, m1] at e1; rw [h, mk] at ek
  exact ⟨by rw [e1]; exact (BitVec.and_allOnes (x := nib1 w)).symm, by rw [ek]; exact (BitVec.and_allOnes (x := fieldKK w)).symm⟩

/-- The low byte decides the two low nibbles. -/
theorem nib34_of_fieldKK {w v : Word} (h : fieldKK w = fieldKK v) : nib3 w = nib3 v ∧ nib4 w = nib4 v := by
  have e := congrArg BitVec.toNat h
  rw [fieldKK_toNat, fieldKK_toNat] at e
  constructor <;> apply BitVec.eq_of_toNat_eq
  · rw [nib3_eq_ofNat, nib3_eq_ofNat]; omega
  · rw [nib4_eq_ofNat, nib4_eq_ofNat]; omega

theorem and_F (b : BitVec 4) : b &&& 0xF = b := BitVec.and_allOnes (x := b)

/-- The converse of `mask_F000`: the row's match has 0 where its mask has. -/
theorem of_mask_F000 {w v : Word} (h1 : nib1 w = nib1 v) (h2 : nib2 v = 0) (h3 : nib3 v = 0) (h4 : nib4 v = 0) :
    w &&& 0xF000 = v := by
  refine word_ext ?_ ?_ ?_ ?_
  · rw [nib1_and, show nib1 0xF000 = 0xF by decide, and_F, h1]
  · rw [nib2_and, show nib2 0xF000 = 0 by decide, h2]; simp
  · rw [nib3_and, show nib3 0xF000 = 0 by decide, h3]; simp
  · rw [nib4_and, show nib4 0xF000 = 0 by decide, h4]; simp

/-- The converse of `mask_F00F`. -/
theorem of_mask_F00F {w v : Word} (h1 : nib1 w = nib1 v) (h2 : nib2 v = 0) (h3 : nib3 v = 0) (h4 : nib4 w = nib4 v) :
    w &&& 0xF00F = v := by
  refine word_ext ?_ ?_ ?_ ?_
  · rw [nib1_and, show nib1 0xF00F = 0xF by decide, and_F, h1]
  · rw [nib2_and, show nib2 0xF00F = 0 by decide, h2]; simp
  · rw [nib3_and, show nib3 0xF00F = 0 by decide, h3]; simp
  · rw [nib4_and, show nib4 0xF00F = 0xF by decide, and_F, h4]

/-- The converse of `mask_F0FF`. -/
theorem of_mask_F0FF {w v : Word} (h1 : nib1 w = nib1 v) (h2 : nib2 v = 0) (hk : fieldKK w = fieldKK v) :
    w &&& 0xF0FF = v := by
  obtain ⟨h3, h4⟩ := nib34_of_fieldKK hk
  refine word_ext ?_ ?_ ?_ ?_
  · rw [nib1_and, show nib1 0xF0FF = 0xF by decide, and_F, h1]
  · rw [nib2_and, show nib2 0xF0FF = 0 by decide, h2]; simp
  · rw [nib3_and, show nib3 0xF0FF = 0xF by decide, and_F, h3]
  · rw [nib4_and, show nib4 0xF0FF = 0xF by decide, and_F, h4]

/-- The two bytes of a word, the first one high (R52). -/
theorem wordOfBytes_eq (hi lo : Byte) : wordOfBytes hi lo = hi.setWidth 16 <<< 8 ||| lo.setWidth 16 := by
  unfold wordOfBytes
  apply BitVec.eq_of_toNat_eq
  have h1 := hi.isLt
  have h2 := lo.isLt
  rw [BitVec.toNat_append, BitVec.toNat_or, BitVec.toNat_shiftLeft, BitVec.toNat_setWidth, BitVec.toNat_setWidth,
    Nat.shiftLeft_eq, Nat.shiftLeft_eq, Nat.mod_eq_of_lt (by omega : hi.toNat < 2 ^ 16),
    Nat.mod_eq_of_lt (by omega : lo.toNat < 2 ^ 16), Nat.mod_eq_of_lt (by omega : hi.toNat * 2 ^ 8 < 2 ^ 16)]

end Sys2Proof
end

