-- ==== Sys2Proof/Laws/State.lean ====
section
/-!
SUPPORT. One lemma per field per update of `State`, true by `rfl`, so that no later proof unfolds an update.
-/

namespace Sys2Proof.Machine

variable (s : State)

/-! ### writeV -/

@[simp] theorem writeV_v (x : RegIdx) (b : Byte) : (writeV s x b).v = s.v.set x.val b x.isLt := rfl
@[simp] theorem writeV_i (x : RegIdx) (b : Byte) : (writeV s x b).i = s.i := rfl
@[simp] theorem writeV_pc (x : RegIdx) (b : Byte) : (writeV s x b).pc = s.pc := rfl
@[simp] theorem writeV_sp (x : RegIdx) (b : Byte) : (writeV s x b).sp = s.sp := rfl
@[simp] theorem writeV_stack (x : RegIdx) (b : Byte) : (writeV s x b).stack = s.stack := rfl
@[simp] theorem writeV_dt (x : RegIdx) (b : Byte) : (writeV s x b).dt = s.dt := rfl
@[simp] theorem writeV_st (x : RegIdx) (b : Byte) : (writeV s x b).st = s.st := rfl
@[simp] theorem writeV_mem (x : RegIdx) (b : Byte) : (writeV s x b).mem = s.mem := rfl
@[simp] theorem writeV_key (x : RegIdx) (b : Byte) : (writeV s x b).key = s.key := rfl
@[simp] theorem writeV_fb (x : RegIdx) (b : Byte) : (writeV s x b).fb = s.fb := rfl
@[simp] theorem writeV_drv (x : RegIdx) (b : Byte) : (writeV s x b).drv = s.drv := rfl
@[simp] theorem writeV_cfg (x : RegIdx) (b : Byte) : (writeV s x b).cfg = s.cfg := rfl
@[simp] theorem writeV_rand (x : RegIdx) (b : Byte) : (writeV s x b).rand = s.rand := rfl
@[simp] theorem writeV_draws (x : RegIdx) (b : Byte) : (writeV s x b).draws = s.draws := rfl
@[simp] theorem writeV_fbChanged (x : RegIdx) (b : Byte) : (writeV s x b).fbChanged = s.fbChanged := rfl

/-! ### writeVs -/

@[simp] theorem writeVs_v (bs : List Byte) : (writeVs s bs).v = writeRegsFrom s.v 0 bs := rfl
@[simp] theorem writeVs_i (bs : List Byte) : (writeVs s bs).i = s.i := rfl
@[simp] theorem writeVs_pc (bs : List Byte) : (writeVs s bs).pc = s.pc := rfl
@[simp] theorem writeVs_sp (bs : List Byte) : (writeVs s bs).sp = s.sp := rfl
@[simp] theorem writeVs_stack (bs : List Byte) : (writeVs s bs).stack = s.stack := rfl
@[simp] theorem writeVs_dt (bs : List Byte) : (writeVs s bs).dt = s.dt := rfl
@[simp] theorem writeVs_st (bs : List Byte) : (writeVs s bs).st = s.st := rfl
@[simp] theorem writeVs_mem (bs : List Byte) : (writeVs s bs).mem = s.mem := rfl
@[simp] theorem writeVs_key (bs : List Byte) : (writeVs s bs).key = s.key := rfl
@[simp] theorem writeVs_fb (bs : List Byte) : (writeVs s bs).fb = s.fb := rfl
@[simp] theorem writeVs_drv (bs : List Byte) : (writeVs s bs).drv = s.drv := rfl
@[simp] theorem writeVs_cfg (bs : List Byte) : (writeVs s bs).cfg = s.cfg := rfl
@[simp] theorem writeVs_rand (bs : List Byte) : (writeVs s bs).rand = s.rand := rfl
@[simp] theorem writeVs_draws (bs : List Byte) : (writeVs s bs).draws = s.draws := rfl
@[simp] theorem writeVs_fbChanged (bs : List Byte) : (writeVs s bs).fbChanged = s.fbChanged := rfl

/-! ### setPC -/

@[simp] theorem setPC_v (a : Word) : (setPC s a).v = s.v := rfl
@[simp] theorem setPC_i (a : Word) : (setPC s a).i = s.i := rfl
@[simp] theorem setPC_pc (a : Word) : (setPC s a).pc = a := rfl
@[simp] theorem setPC_sp (a : Word) : (setPC s a).sp = s.sp := rfl
@[simp] theorem setPC_stack (a : Word) : (setPC s a).stack = s.stack := rfl
@[simp] theorem setPC_dt (a : Word) : (setPC s a).dt = s.dt := rfl
@[simp] theorem setPC_st (a : Word) : (setPC s a).st = s.st := rfl
@[simp] theorem setPC_mem (a : Word) : (setPC s a).mem = s.mem := rfl
@[simp] theorem setPC_key (a : Word) : (setPC s a).key = s.key := rfl
@[simp] theorem setPC_fb (a : Word) : (setPC s a).fb = s.fb := rfl
@[simp] theorem setPC_drv (a : Word) : (setPC s a).drv = s.drv := rfl
@[simp] theorem setPC_cfg (a : Word) : (setPC s a).cfg = s.cfg := rfl
@[simp] theorem setPC_rand (a : Word) : (setPC s a).rand = s.rand := rfl
@[simp] theorem setPC_draws (a : Word) : (setPC s a).draws = s.draws := rfl
@[simp] theorem setPC_fbChanged (a : Word) : (setPC s a).fbChanged = s.fbChanged := rfl

/-! ### setI -/

@[simp] theorem setI_v (a : Word) : (setI s a).v = s.v := rfl
@[simp] theorem setI_i (a : Word) : (setI s a).i = a := rfl
@[simp] theorem setI_pc (a : Word) : (setI s a).pc = s.pc := rfl
@[simp] theorem setI_sp (a : Word) : (setI s a).sp = s.sp := rfl
@[simp] theorem setI_stack (a : Word) : (setI s a).stack = s.stack := rfl
@[simp] theorem setI_dt (a : Word) : (setI s a).dt = s.dt := rfl
@[simp] theorem setI_st (a : Word) : (setI s a).st = s.st := rfl
@[simp] theorem setI_mem (a : Word) : (setI s a).mem = s.mem := rfl
@[simp] theorem setI_key (a : Word) : (setI s a).key = s.key := rfl
@[simp] theorem setI_fb (a : Word) : (setI s a).fb = s.fb := rfl
@[simp] theorem setI_drv (a : Word) : (setI s a).drv = s.drv := rfl
@[simp] theorem setI_cfg (a : Word) : (setI s a).cfg = s.cfg := rfl
@[simp] theorem setI_rand (a : Word) : (setI s a).rand = s.rand := rfl
@[simp] theorem setI_draws (a : Word) : (setI s a).draws = s.draws := rfl
@[simp] theorem setI_fbChanged (a : Word) : (setI s a).fbChanged = s.fbChanged := rfl

/-! ### setDT -/

@[simp] theorem setDT_v (b : Byte) : (setDT s b).v = s.v := rfl
@[simp] theorem setDT_i (b : Byte) : (setDT s b).i = s.i := rfl
@[simp] theorem setDT_pc (b : Byte) : (setDT s b).pc = s.pc := rfl
@[simp] theorem setDT_sp (b : Byte) : (setDT s b).sp = s.sp := rfl
@[simp] theorem setDT_stack (b : Byte) : (setDT s b).stack = s.stack := rfl
@[simp] theorem setDT_dt (b : Byte) : (setDT s b).dt = b := rfl
@[simp] theorem setDT_st (b : Byte) : (setDT s b).st = s.st := rfl
@[simp] theorem setDT_mem (b : Byte) : (setDT s b).mem = s.mem := rfl
@[simp] theorem setDT_key (b : Byte) : (setDT s b).key = s.key := rfl
@[simp] theorem setDT_fb (b : Byte) : (setDT s b).fb = s.fb := rfl
@[simp] theorem setDT_drv (b : Byte) : (setDT s b).drv = s.drv := rfl
@[simp] theorem setDT_cfg (b : Byte) : (setDT s b).cfg = s.cfg := rfl
@[simp] theorem setDT_rand (b : Byte) : (setDT s b).rand = s.rand := rfl
@[simp] theorem setDT_draws (b : Byte) : (setDT s b).draws = s.draws := rfl
@[simp] theorem setDT_fbChanged (b : Byte) : (setDT s b).fbChanged = s.fbChanged := rfl

/-! ### setST -/

@[simp] theorem setST_v (b : Byte) : (setST s b).v = s.v := rfl
@[simp] theorem setST_i (b : Byte) : (setST s b).i = s.i := rfl
@[simp] theorem setST_pc (b : Byte) : (setST s b).pc = s.pc := rfl
@[simp] theorem setST_sp (b : Byte) : (setST s b).sp = s.sp := rfl
@[simp] theorem setST_stack (b : Byte) : (setST s b).stack = s.stack := rfl
@[simp] theorem setST_dt (b : Byte) : (setST s b).dt = s.dt := rfl
@[simp] theorem setST_st (b : Byte) : (setST s b).st = b := rfl
@[simp] theorem setST_mem (b : Byte) : (setST s b).mem = s.mem := rfl
@[simp] theorem setST_key (b : Byte) : (setST s b).key = s.key := rfl
@[simp] theorem setST_fb (b : Byte) : (setST s b).fb = s.fb := rfl
@[simp] theorem setST_drv (b : Byte) : (setST s b).drv = s.drv := rfl
@[simp] theorem setST_cfg (b : Byte) : (setST s b).cfg = s.cfg := rfl
@[simp] theorem setST_rand (b : Byte) : (setST s b).rand = s.rand := rfl
@[simp] theorem setST_draws (b : Byte) : (setST s b).draws = s.draws := rfl
@[simp] theorem setST_fbChanged (b : Byte) : (setST s b).fbChanged = s.fbChanged := rfl

/-! ### setMem -/

@[simp] theorem setMem_v (m : Memory) : (setMem s m).v = s.v := rfl
@[simp] theorem setMem_i (m : Memory) : (setMem s m).i = s.i := rfl
@[simp] theorem setMem_pc (m : Memory) : (setMem s m).pc = s.pc := rfl
@[simp] theorem setMem_sp (m : Memory) : (setMem s m).sp = s.sp := rfl
@[simp] theorem setMem_stack (m : Memory) : (setMem s m).stack = s.stack := rfl
@[simp] theorem setMem_dt (m : Memory) : (setMem s m).dt = s.dt := rfl
@[simp] theorem setMem_st (m : Memory) : (setMem s m).st = s.st := rfl
@[simp] theorem setMem_mem (m : Memory) : (setMem s m).mem = m := rfl
@[simp] theorem setMem_key (m : Memory) : (setMem s m).key = s.key := rfl
@[simp] theorem setMem_fb (m : Memory) : (setMem s m).fb = s.fb := rfl
@[simp] theorem setMem_drv (m : Memory) : (setMem s m).drv = s.drv := rfl
@[simp] theorem setMem_cfg (m : Memory) : (setMem s m).cfg = s.cfg := rfl
@[simp] theorem setMem_rand (m : Memory) : (setMem s m).rand = s.rand := rfl
@[simp] theorem setMem_draws (m : Memory) : (setMem s m).draws = s.draws := rfl
@[simp] theorem setMem_fbChanged (m : Memory) : (setMem s m).fbChanged = s.fbChanged := rfl

/-! ### setDrv -/

@[simp] theorem setDrv_v (d : DriverState) : (setDrv s d).v = s.v := rfl
@[simp] theorem setDrv_i (d : DriverState) : (setDrv s d).i = s.i := rfl
@[simp] theorem setDrv_pc (d : DriverState) : (setDrv s d).pc = s.pc := rfl
@[simp] theorem setDrv_sp (d : DriverState) : (setDrv s d).sp = s.sp := rfl
@[simp] theorem setDrv_stack (d : DriverState) : (setDrv s d).stack = s.stack := rfl
@[simp] theorem setDrv_dt (d : DriverState) : (setDrv s d).dt = s.dt := rfl
@[simp] theorem setDrv_st (d : DriverState) : (setDrv s d).st = s.st := rfl
@[simp] theorem setDrv_mem (d : DriverState) : (setDrv s d).mem = s.mem := rfl
@[simp] theorem setDrv_key (d : DriverState) : (setDrv s d).key = s.key := rfl
@[simp] theorem setDrv_fb (d : DriverState) : (setDrv s d).fb = s.fb := rfl
@[simp] theorem setDrv_drv (d : DriverState) : (setDrv s d).drv = d := rfl
@[simp] theorem setDrv_cfg (d : DriverState) : (setDrv s d).cfg = s.cfg := rfl
@[simp] theorem setDrv_rand (d : DriverState) : (setDrv s d).rand = s.rand := rfl
@[simp] theorem setDrv_draws (d : DriverState) : (setDrv s d).draws = s.draws := rfl
@[simp] theorem setDrv_fbChanged (d : DriverState) : (setDrv s d).fbChanged = s.fbChanged := rfl

/-! ### setFb -/

@[simp] theorem setFb_v (f : Framebuffer) : (setFb s f).v = s.v := rfl
@[simp] theorem setFb_i (f : Framebuffer) : (setFb s f).i = s.i := rfl
@[simp] theorem setFb_pc (f : Framebuffer) : (setFb s f).pc = s.pc := rfl
@[simp] theorem setFb_sp (f : Framebuffer) : (setFb s f).sp = s.sp := rfl
@[simp] theorem setFb_stack (f : Framebuffer) : (setFb s f).stack = s.stack := rfl
@[simp] theorem setFb_dt (f : Framebuffer) : (setFb s f).dt = s.dt := rfl
@[simp] theorem setFb_st (f : Framebuffer) : (setFb s f).st = s.st := rfl
@[simp] theorem setFb_mem (f : Framebuffer) : (setFb s f).mem = s.mem := rfl
@[simp] theorem setFb_key (f : Framebuffer) : (setFb s f).key = s.key := rfl
@[simp] theorem setFb_fb (f : Framebuffer) : (setFb s f).fb = f := rfl
@[simp] theorem setFb_drv (f : Framebuffer) : (setFb s f).drv = s.drv := rfl
@[simp] theorem setFb_cfg (f : Framebuffer) : (setFb s f).cfg = s.cfg := rfl
@[simp] theorem setFb_rand (f : Framebuffer) : (setFb s f).rand = s.rand := rfl
@[simp] theorem setFb_draws (f : Framebuffer) : (setFb s f).draws = s.draws := rfl
@[simp] theorem setFb_fbChanged (f : Framebuffer) : (setFb s f).fbChanged = true := rfl

/-! ### advancePC -/

@[simp] theorem advancePC_v : (advancePC s).v = s.v := rfl
@[simp] theorem advancePC_i : (advancePC s).i = s.i := rfl
@[simp] theorem advancePC_pc : (advancePC s).pc = s.pc + 2 := rfl
@[simp] theorem advancePC_sp : (advancePC s).sp = s.sp := rfl
@[simp] theorem advancePC_stack : (advancePC s).stack = s.stack := rfl
@[simp] theorem advancePC_dt : (advancePC s).dt = s.dt := rfl
@[simp] theorem advancePC_st : (advancePC s).st = s.st := rfl
@[simp] theorem advancePC_mem : (advancePC s).mem = s.mem := rfl
@[simp] theorem advancePC_key : (advancePC s).key = s.key := rfl
@[simp] theorem advancePC_fb : (advancePC s).fb = s.fb := rfl
@[simp] theorem advancePC_drv : (advancePC s).drv = s.drv := rfl
@[simp] theorem advancePC_cfg : (advancePC s).cfg = s.cfg := rfl
@[simp] theorem advancePC_rand : (advancePC s).rand = s.rand := rfl
@[simp] theorem advancePC_draws : (advancePC s).draws = s.draws := rfl
@[simp] theorem advancePC_fbChanged : (advancePC s).fbChanged = s.fbChanged := rfl

/-! ### beginStep -/

@[simp] theorem beginStep_v : (beginStep s).v = s.v := rfl
@[simp] theorem beginStep_i : (beginStep s).i = s.i := rfl
@[simp] theorem beginStep_pc : (beginStep s).pc = s.pc := rfl
@[simp] theorem beginStep_sp : (beginStep s).sp = s.sp := rfl
@[simp] theorem beginStep_stack : (beginStep s).stack = s.stack := rfl
@[simp] theorem beginStep_dt : (beginStep s).dt = s.dt := rfl
@[simp] theorem beginStep_st : (beginStep s).st = s.st := rfl
@[simp] theorem beginStep_mem : (beginStep s).mem = s.mem := rfl
@[simp] theorem beginStep_key : (beginStep s).key = s.key := rfl
@[simp] theorem beginStep_fb : (beginStep s).fb = s.fb := rfl
@[simp] theorem beginStep_drv : (beginStep s).drv = s.drv := rfl
@[simp] theorem beginStep_cfg : (beginStep s).cfg = s.cfg := rfl
@[simp] theorem beginStep_rand : (beginStep s).rand = s.rand := rfl
@[simp] theorem beginStep_draws : (beginStep s).draws = s.draws := rfl
@[simp] theorem beginStep_fbChanged : (beginStep s).fbChanged = false := rfl

/-! ### tick -/

@[simp] theorem tick_v : (tick s).v = s.v := rfl
@[simp] theorem tick_i : (tick s).i = s.i := rfl
@[simp] theorem tick_pc : (tick s).pc = s.pc := rfl
@[simp] theorem tick_sp : (tick s).sp = s.sp := rfl
@[simp] theorem tick_stack : (tick s).stack = s.stack := rfl
@[simp] theorem tick_dt : (tick s).dt = tickTimer s.dt := rfl
@[simp] theorem tick_st : (tick s).st = tickTimer s.st := rfl
@[simp] theorem tick_mem : (tick s).mem = s.mem := rfl
@[simp] theorem tick_key : (tick s).key = s.key := rfl
@[simp] theorem tick_fb : (tick s).fb = s.fb := rfl
@[simp] theorem tick_drv : (tick s).drv = s.drv := rfl
@[simp] theorem tick_cfg : (tick s).cfg = s.cfg := rfl
@[simp] theorem tick_rand : (tick s).rand = s.rand := rfl
@[simp] theorem tick_draws : (tick s).draws = s.draws := rfl
@[simp] theorem tick_fbChanged : (tick s).fbChanged = s.fbChanged := rfl

/-! ### closeStep -/

@[simp] theorem closeStep_v : (closeStep s).v = s.v := rfl
@[simp] theorem closeStep_i : (closeStep s).i = s.i := rfl
@[simp] theorem closeStep_pc : (closeStep s).pc = s.pc := rfl
@[simp] theorem closeStep_sp : (closeStep s).sp = s.sp := rfl
@[simp] theorem closeStep_stack : (closeStep s).stack = s.stack := rfl
@[simp] theorem closeStep_dt : (closeStep s).dt = tickTimer s.dt := rfl
@[simp] theorem closeStep_st : (closeStep s).st = tickTimer s.st := rfl
@[simp] theorem closeStep_mem : (closeStep s).mem = s.mem := rfl
@[simp] theorem closeStep_key : (closeStep s).key = s.key := rfl
@[simp] theorem closeStep_fb : (closeStep s).fb = s.fb := rfl
@[simp] theorem closeStep_drv : (closeStep s).drv = s.drv := rfl
@[simp] theorem closeStep_cfg : (closeStep s).cfg = s.cfg := rfl
@[simp] theorem closeStep_rand : (closeStep s).rand = none := rfl
@[simp] theorem closeStep_draws : (closeStep s).draws = s.draws + 1 := rfl
@[simp] theorem closeStep_fbChanged : (closeStep s).fbChanged = s.fbChanged := rfl

/-! ### setKey -/

@[simp] theorem setKey_v (k : RegIdx) (p : Bool) : (setKey s k p).v = s.v := rfl
@[simp] theorem setKey_i (k : RegIdx) (p : Bool) : (setKey s k p).i = s.i := rfl
@[simp] theorem setKey_pc (k : RegIdx) (p : Bool) : (setKey s k p).pc = s.pc := rfl
@[simp] theorem setKey_sp (k : RegIdx) (p : Bool) : (setKey s k p).sp = s.sp := rfl
@[simp] theorem setKey_stack (k : RegIdx) (p : Bool) : (setKey s k p).stack = s.stack := rfl
@[simp] theorem setKey_dt (k : RegIdx) (p : Bool) : (setKey s k p).dt = s.dt := rfl
@[simp] theorem setKey_st (k : RegIdx) (p : Bool) : (setKey s k p).st = s.st := rfl
@[simp] theorem setKey_mem (k : RegIdx) (p : Bool) : (setKey s k p).mem = s.mem := rfl
@[simp] theorem setKey_key (k : RegIdx) (p : Bool) : (setKey s k p).key = s.key.set k.val p k.isLt := rfl
@[simp] theorem setKey_fb (k : RegIdx) (p : Bool) : (setKey s k p).fb = s.fb := rfl
@[simp] theorem setKey_drv (k : RegIdx) (p : Bool) : (setKey s k p).drv = s.drv := rfl
@[simp] theorem setKey_cfg (k : RegIdx) (p : Bool) : (setKey s k p).cfg = s.cfg := rfl
@[simp] theorem setKey_rand (k : RegIdx) (p : Bool) : (setKey s k p).rand = s.rand := rfl
@[simp] theorem setKey_draws (k : RegIdx) (p : Bool) : (setKey s k p).draws = s.draws := rfl
@[simp] theorem setKey_fbChanged (k : RegIdx) (p : Bool) : (setKey s k p).fbChanged = s.fbChanged := rfl

/-! ### supplyRand -/

@[simp] theorem supplyRand_v (b : Byte) : (supplyRand s b).v = s.v := rfl
@[simp] theorem supplyRand_i (b : Byte) : (supplyRand s b).i = s.i := rfl
@[simp] theorem supplyRand_pc (b : Byte) : (supplyRand s b).pc = s.pc := rfl
@[simp] theorem supplyRand_sp (b : Byte) : (supplyRand s b).sp = s.sp := rfl
@[simp] theorem supplyRand_stack (b : Byte) : (supplyRand s b).stack = s.stack := rfl
@[simp] theorem supplyRand_dt (b : Byte) : (supplyRand s b).dt = s.dt := rfl
@[simp] theorem supplyRand_st (b : Byte) : (supplyRand s b).st = s.st := rfl
@[simp] theorem supplyRand_mem (b : Byte) : (supplyRand s b).mem = s.mem := rfl
@[simp] theorem supplyRand_key (b : Byte) : (supplyRand s b).key = s.key := rfl
@[simp] theorem supplyRand_fb (b : Byte) : (supplyRand s b).fb = s.fb := rfl
@[simp] theorem supplyRand_drv (b : Byte) : (supplyRand s b).drv = s.drv := rfl
@[simp] theorem supplyRand_cfg (b : Byte) : (supplyRand s b).cfg = s.cfg := rfl
@[simp] theorem supplyRand_rand (b : Byte) : (supplyRand s b).rand = some b := rfl
@[simp] theorem supplyRand_draws (b : Byte) : (supplyRand s b).draws = s.draws := rfl
@[simp] theorem supplyRand_fbChanged (b : Byte) : (supplyRand s b).fbChanged = s.fbChanged := rfl

/-! ### hostReset -/

@[simp] theorem hostReset_v : (hostReset s).v = Vector.replicate 16 0 := rfl
@[simp] theorem hostReset_i : (hostReset s).i = 0 := rfl
@[simp] theorem hostReset_pc : (hostReset s).pc = 0x200 := rfl
@[simp] theorem hostReset_sp : (hostReset s).sp = 0 := rfl
@[simp] theorem hostReset_stack : (hostReset s).stack = Vector.replicate 16 0 := rfl
@[simp] theorem hostReset_dt : (hostReset s).dt = 0 := rfl
@[simp] theorem hostReset_st : (hostReset s).st = 0 := rfl
@[simp] theorem hostReset_mem : (hostReset s).mem = writeBytes [] fontBase s.cfg.font.toList := rfl
@[simp] theorem hostReset_key : (hostReset s).key = Vector.replicate 16 false := rfl
@[simp] theorem hostReset_fb : (hostReset s).fb = Framebuffer.allOff := rfl
@[simp] theorem hostReset_drv : (hostReset s).drv = .running := rfl
@[simp] theorem hostReset_cfg : (hostReset s).cfg = s.cfg := rfl
@[simp] theorem hostReset_rand : (hostReset s).rand = s.rand := rfl
@[simp] theorem hostReset_draws : (hostReset s).draws = s.draws := rfl
@[simp] theorem hostReset_fbChanged : (hostReset s).fbChanged = false := rfl

end Sys2Proof.Machine
end

