-- ==== Sys2Proof/Laws/Memory.lean ====
section
/-!
SUPPORT. Memory: a read after a write, and that every memory operation keeps the canonical form.
-/

namespace Sys2Proof.Machine

theorem memRead_memInsert (m : Memory) (a c : Nat) (b : Byte) :
    memRead (memInsert m a b) c = if c = a then b else memRead m c := by
  induction m with
  | nil => simp [memInsert, memRead, eq_comm]
  | cons p m ih =>
    obtain ⟨k, d⟩ := p
    simp only [memInsert]
    split
    · simp [memRead, eq_comm]
    · split
      · next hak =>
        subst hak
        by_cases h : c = a
        · simp [memRead, h]
        · simp [memRead, h, Ne.symm h]
      · simp only [memRead, ih]
        by_cases h : c = a
        · rw [if_neg (by omega), if_pos h, if_pos h]
        · rw [if_neg h, if_neg h]

theorem memRead_memErase (m : Memory) (a c : Nat) :
    memRead (memErase m a) c = if c = a then unlistedByte a else memRead m c := by
  induction m with
  | nil => by_cases h : c = a <;> simp [memErase, memRead, h]
  | cons p m ih =>
    obtain ⟨k, d⟩ := p
    simp only [memErase]
    split
    · next hk =>
      rw [ih]
      by_cases h : c = a
      · rw [if_pos h, if_pos h]
      · rw [if_neg h, if_neg h, memRead, if_neg (by omega)]
    · simp only [memRead, ih]
      by_cases h : c = a
      · rw [if_neg (by omega), if_pos h, if_pos h]
      · rw [if_neg h, if_neg h]

/-- A read returns the byte last written there, and a write leaves every other address alone (R63). -/
theorem memRead_memWrite (m : Memory) (a c : Nat) (b : Byte) :
    memRead (memWrite m a b) c = if c = a then b else memRead m c := by
  unfold memWrite
  split
  · next h => rw [memRead_memErase, h]
  · exact memRead_memInsert m a c b

theorem memRead_memWrite_same (m : Memory) (a : Nat) (b : Byte) : memRead (memWrite m a b) a = b := by
  simp [memRead_memWrite]

theorem memRead_memWrite_ne (m : Memory) {a c : Nat} (b : Byte) (h : c ≠ a) :
    memRead (memWrite m a b) c = memRead m c := by
  simp [memRead_memWrite, h]

theorem readBytes_length (m : Memory) (a n : Nat) : (readBytes m a n).length = n := by
  induction n generalizing a with
  | zero => rfl
  | succ n ih => simp [readBytes, ih]

theorem readBytes_get (m : Memory) (a n k : Nat) (h : k < (readBytes m a n).length) :
    (readBytes m a n)[k] = memRead m (a + k) := by
  induction n generalizing a k with
  | zero => simp [readBytes] at h
  | succ n ih =>
    cases k with
    | zero => rfl
    | succ k =>
      simp only [readBytes, List.getElem_cons_succ]
      rw [ih]
      congr 1
      omega

/-- A write of several bytes leaves every address outside them alone. -/
theorem memRead_writeBytes_out (bs : List Byte) (m : Memory) (a c : Nat) (h : c < a ∨ a + bs.length ≤ c) :
    memRead (writeBytes m a bs) c = memRead m c := by
  induction bs generalizing m a with
  | nil => rfl
  | cons b bs ih =>
    simp only [List.length_cons] at h
    rw [writeBytes, ih _ _ (by omega), memRead_memWrite_ne _ _ (by omega)]

/-- A write of several bytes puts the k-th at `a + k`. -/
theorem memRead_writeBytes_in (bs : List Byte) (m : Memory) (a k : Nat) (h : k < bs.length) :
    memRead (writeBytes m a bs) (a + k) = bs[k] := by
  induction bs generalizing m a k with
  | nil => simp at h
  | cons b bs ih =>
    cases k with
    | zero => rw [writeBytes, memRead_writeBytes_out _ _ _ _ (by omega)]; simp [memRead_memWrite]
    | succ k =>
      have hk : k < bs.length := by simpa using h
      rw [writeBytes, show a + (k + 1) = a + 1 + k by omega, ih _ _ _ hk]
      rfl

/-! ### The canonical form -/

/-- The canonical form, said as a proposition. -/
theorem Memory.wf_iff (m : Memory) : Memory.wf m = true ↔
    m.Pairwise (fun p q => p.1 < q.1) ∧ ∀ p ∈ m, p.1 < memSize ∧ p.2 ≠ unlistedByte p.1 := by
  simp [Memory.wf]

theorem mem_memInsert {m : Memory} {a : Nat} {b : Byte} {p : Host.Cell} (h : p ∈ memInsert m a b) :
    p = (a, b) ∨ p ∈ m := by
  induction m with
  | nil => simpa [memInsert] using h
  | cons q m ih =>
    obtain ⟨k, c⟩ := q
    simp only [memInsert] at h
    split at h
    · simpa using h
    · split at h
      · rcases List.mem_cons.1 h with h | h
        · exact .inl h
        · exact .inr (List.mem_cons_of_mem _ h)
      · rcases List.mem_cons.1 h with h | h
        · exact .inr (h ▸ List.mem_cons_self)
        · exact (ih h).imp id (List.mem_cons_of_mem _)

theorem memErase_sublist (m : Memory) (a : Nat) : (memErase m a).Sublist m := by
  induction m with
  | nil => exact .slnil
  | cons q m ih =>
    obtain ⟨k, c⟩ := q
    simp only [memErase]
    split
    · exact ih.cons _
    · exact ih.cons_cons _

theorem memInsert_pairwise (m : Memory) (a : Nat) (b : Byte) (h : m.Pairwise fun p q => p.1 < q.1) :
    (memInsert m a b).Pairwise fun p q => p.1 < q.1 := by
  induction m with
  | nil => simp [memInsert]
  | cons q m ih =>
    obtain ⟨k, c⟩ := q
    obtain ⟨hk, hm⟩ := List.pairwise_cons.1 h
    simp only [memInsert]
    split
    · next hlt =>
      refine List.pairwise_cons.2 ⟨fun p hp => ?_, h⟩
      rcases List.mem_cons.1 hp with rfl | hp
      · exact hlt
      · exact Nat.lt_trans hlt (hk p hp)
    · split
      · next he => exact List.pairwise_cons.2 ⟨fun p hp => he ▸ hk p hp, hm⟩
      · refine List.pairwise_cons.2 ⟨fun p hp => ?_, ih hm⟩
        rcases mem_memInsert hp with rfl | hp
        · show k < a
          omega
        · exact hk p hp

/-- A write inside the address space keeps the canonical form. -/
theorem memWrite_wf {m : Memory} {a : Nat} (b : Byte) (h : Memory.wf m = true) (ha : a < memSize) :
    Memory.wf (memWrite m a b) = true := by
  rw [Memory.wf_iff] at h ⊢
  unfold memWrite
  split
  · exact ⟨h.1.sublist (memErase_sublist m a), fun p hp => h.2 p ((memErase_sublist m a).subset hp)⟩
  · next hb =>
    refine ⟨memInsert_pairwise m a b h.1, fun p hp => ?_⟩
    rcases mem_memInsert hp with rfl | hp
    · exact ⟨ha, hb⟩
    · exact h.2 p hp

/-- So does a write of several bytes. -/
theorem writeBytes_wf (bs : List Byte) {m : Memory} {a : Nat} (h : Memory.wf m = true)
    (ha : a + bs.length ≤ memSize) : Memory.wf (writeBytes m a bs) = true := by
  induction bs generalizing m a with
  | nil => exact h
  | cons b bs ih =>
    simp only [List.length_cons] at ha
    exact ih (memWrite_wf b h (by omega)) (by omega)

theorem reset_mem_wf : Memory.wf State.reset.mem = true := rfl

theorem placeAddr_le (s : State) : (placeAddr s).toNat + 1 < memSize := by
  unfold placeAddr
  split
  · assumption
  · decide

/-- Placing a word keeps the canonical form. -/
theorem placeWord_wf {s : State} (hi lo : Byte) (h : Memory.wf s.mem = true) :
    Memory.wf (placeWord s hi lo).mem = true :=
  writeBytes_wf _ h (by have := placeAddr_le s; simp; omega)

/-- Two canonical memories that read alike below 4096 are equal data. -/
theorem Memory.wf_ext {m m' : Memory} (h : Memory.wf m = true) (h' : Memory.wf m' = true)
    (hr : ∀ a, memRead m a = memRead m' a) : m = m' := by
  have read_lt : ∀ (l : Memory) (a : Nat), (∀ p ∈ l, a < p.1) → memRead l a = unlistedByte a := by
    intro l a hl
    induction l with
    | nil => rfl
    | cons p l ih =>
      rw [memRead, if_neg (by have := hl p List.mem_cons_self; omega)]
      exact ih fun q hq => hl q (List.mem_cons_of_mem _ hq)
  rw [Memory.wf_iff] at h h'
  induction m generalizing m' with
  | nil =>
    cases m' with
    | nil => rfl
    | cons q m' =>
      have := hr q.1
      simp only [memRead, if_true] at this
      exact absurd this.symm (h'.2 q List.mem_cons_self).2
  | cons p m ih =>
    obtain ⟨hp, hm⟩ := List.pairwise_cons.1 h.1
    cases m' with
    | nil =>
      have := hr p.1
      simp only [memRead, if_true] at this
      exact absurd this (h.2 p List.mem_cons_self).2
    | cons q m' =>
      obtain ⟨hq, hm'⟩ := List.pairwise_cons.1 h'.1
      have hpq : p.1 = q.1 := by
        rcases Nat.lt_trichotomy p.1 q.1 with hlt | he | hgt
        · have h1 := hr p.1
          rw [memRead, if_pos rfl, memRead, if_neg (by omega),
            read_lt m' p.1 fun r hr' => Nat.lt_trans hlt (hq r hr')] at h1
          exact absurd h1 (h.2 p List.mem_cons_self).2
        · exact he
        · have h1 := hr q.1
          rw [memRead, if_neg (by omega), read_lt m q.1 fun r hr' => Nat.lt_trans hgt (hp r hr'),
            memRead, if_pos rfl] at h1
          exact absurd h1.symm (h'.2 q List.mem_cons_self).2
      have hval : p.2 = q.2 := by
        have h1 := hr p.1
        rwa [memRead, if_pos rfl, memRead, if_pos hpq.symm] at h1
      have hpe : p = q := Prod.ext hpq hval
      subst hpe
      congr 1
      refine ih ⟨hm, fun r hr' => h.2 r (List.mem_cons_of_mem _ hr')⟩
        ⟨hm', fun r hr' => h'.2 r (List.mem_cons_of_mem _ hr')⟩ fun a => ?_
      by_cases ha : p.1 = a
      · rw [← ha, read_lt m p.1 hp, read_lt m' p.1 hq]
      · have h1 := hr a
        rwa [memRead, if_neg ha, memRead, if_neg ha] at h1

end Sys2Proof.Machine
end

