-- ==== Sys2Proof/Laws/Ops.lean ====
section
/-!
SUPPORT. One law per shared operation over registers, the stack, the range check, the flag write, the keys and the
framebuffer: everything the operation can do, said once.
-/

namespace Sys2Proof.Machine

/-! ### General registers -/

/-- A register file, a stack or a key vector after a write at one index. -/
@[simp] theorem get_set {α : Type} (v : Vector α 16) (x y : Fin 16) (b : α) :
    (v.set x.val b x.isLt).get y = if y = x then b else v.get y := by
  simp only [Vector.get_eq_getElem, Vector.getElem_set]
  by_cases h : y = x
  · simp [h]
  · rw [if_neg h, if_neg (fun e => h (Fin.ext e.symm))]

/-- The same at VF, whose index `simp` writes as the numeral 15. -/
@[simp] theorem get_set_F {α : Type} (v : Vector α 16) (y : Fin 16) (b : α) (h : 15 < 16) :
    (v.set 15 b h).get y = if y = 15 then b else v.get y := get_set v 15 y b

theorem readV_eq (s : State) (x : RegIdx) : readV s x = s.v.get x := rfl

theorem readV_writeV (s : State) (x y : RegIdx) (b : Byte) :
    readV (writeV s x b) y = if y = x then b else readV s y := get_set s.v x y b

@[simp] theorem readV_writeV_same (s : State) (x : RegIdx) (b : Byte) : readV (writeV s x b) x = b := by
  simp [readV_writeV]

theorem writeV_eq (s : State) (x : RegIdx) (b : Byte) : writeV s x b = { s with v := (writeV s x b).v } := rfl

/-- `readVs` is V0..Vx in order. -/
theorem readVs_length (s : State) (x : RegIdx) : (readVs s x).length = x.val + 1 := by
  simp [readVs]

theorem readVs_get (s : State) (x : RegIdx) (k : Nat) (h : k < (readVs s x).length) :
    (readVs s x)[k] = readV s ⟨k, by rw [readVs_length] at h; omega⟩ := by
  simp [readVs, readV, Vector.get_eq_getElem]

/-- `writeRegsFrom` writes registers `k` to `k + bs.length - 1` and no other. -/
theorem writeRegsFrom_getElem (bs : List Byte) (v : Vector Byte 16) (k r : Nat) (hr : r < 16) :
    (writeRegsFrom v k bs)[r] = if h : k ≤ r ∧ r < k + bs.length then bs[r - k]'(by omega) else v[r] := by
  induction bs generalizing v k with
  | nil => rw [dif_neg (by simp)]; rfl
  | cons b bs ih =>
    rw [writeRegsFrom, ih]
    by_cases h1 : k + 1 ≤ r ∧ r < k + 1 + bs.length
    · rw [dif_pos h1, dif_pos (by simp only [List.length_cons]; omega)]
      obtain ⟨d, rfl⟩ : ∃ d, r = k + 1 + d := ⟨r - (k + 1), by omega⟩
      simp [show k + 1 + d - k = d + 1 by omega]
    · rw [dif_neg h1, Vector.getElem_setIfInBounds]
      by_cases h2 : k = r
      · subst h2
        simp
      · rw [if_neg h2, dif_neg (by simp only [List.length_cons]; omega)]

/-! ### The range check -/

theorem inRange_iff (base len : Nat) : inRange base len = true ↔ len = 0 ∨ base + len ≤ 4096 := by
  exact decide_eq_true_iff

theorem guardRange_next {base len : Nat} {t u : State} :
    guardRange base len t = .next u ↔ inRange base len = true ∧ u = t := by
  unfold guardRange raise
  by_cases h : inRange base len = true
  · simp [h, eq_comm]
  · simp [h]

theorem guardRange_fault {base len : Nat} {t : State} {f : Fault} :
    guardRange base len t = .fault f ↔ inRange base len = false ∧ f = rangeFault base := by
  unfold guardRange raise
  by_cases h : inRange base len = true
  · simp [h]
  · simp [h, eq_comm]

theorem guardRange_not_refused {base len : Nat} {t : State} {r : Refusal} : guardRange base len t ≠ .refused r := by
  unfold guardRange raise
  split <;> simp

/-! ### The return stack -/

theorem pushStack_some {s t : State} {a : Word} (h : pushStack s a = some t) :
    ∃ hs : s.sp.val < 16, t = { s with stack := s.stack.set s.sp.val a hs, sp := ⟨s.sp.val + 1, by omega⟩ } := by
  unfold pushStack at h
  split at h
  · next hs => exact ⟨hs, (Option.some.inj h).symm⟩
  · simp at h

theorem pushStack_none {s : State} {a : Word} : pushStack s a = none ↔ s.sp.val = 16 := by
  unfold pushStack
  have := s.sp.isLt
  split <;> simp <;> omega

theorem popStack_some {s t : State} {a : Word} (h : popStack s = some (a, t)) :
    ∃ hs : 0 < s.sp.val, a = s.stack[s.sp.val - 1]'(by omega) ∧ t = { s with sp := ⟨s.sp.val - 1, by omega⟩ } := by
  unfold popStack at h
  split at h
  · next hs =>
    obtain ⟨h1, h2⟩ := Prod.mk.inj (Option.some.inj h)
    exact ⟨hs, h1.symm, h2.symm⟩
  · simp at h

theorem popStack_none {s : State} : popStack s = none ↔ s.sp.val = 0 := by
  unfold popStack
  split <;> simp <;> omega

/-! ### The flag write -/

/-- `write_flagged` writes general registers only. -/
theorem writeFlagged_eq (s : State) (x : RegIdx) (res : Byte) (f : Bool) :
    writeFlagged s x res f = { s with v := (writeFlagged s x res f).v } := by
  unfold writeFlagged
  split
  · rfl
  · split <;> rfl

/-- What `write_flagged` leaves in each register (R122). -/
theorem readV_writeFlagged (s : State) (x r : RegIdx) (res : Byte) (f : Bool) :
    readV (writeFlagged s x res f) r =
      if r = regF then
        (if x = regF ∧ s.cfg.vfWriteOrder = .resultLast then res else flagByte f)
      else if r = x then res else readV s r := by
  unfold writeFlagged
  by_cases hx : x = regF
  · subst hx
    cases h : s.cfg.vfWriteOrder <;> by_cases hr : r = regF <;> simp [readV_writeV, hr]
  · by_cases hr : r = regF <;> simp [readV_writeV, hx, hr]

theorem carryOut_iff (a b : Byte) : carryOut a b = true ↔ 255 < a.toNat + b.toNat := decide_eq_true_iff

theorem notBorrow_iff (a b : Byte) : notBorrow a b = true ↔ b.toNat < a.toNat := decide_eq_true_iff

theorem shiftedOutLow_iff (a : Byte) : shiftedOutLow a = true ↔ a.toNat % 2 = 1 := by
  simp [shiftedOutLow, BitVec.getLsbD, Nat.testBit_zero]

theorem shiftedOutHigh_iff (a : Byte) : shiftedOutHigh a = true ↔ a.toNat / 128 = 1 := by
  have := a.isLt
  simp only [shiftedOutHigh, BitVec.getLsbD, Nat.testBit_eq_decide_div_mod_eq, decide_eq_true_eq]
  omega

theorem flagByte_toNat (f : Bool) : (flagByte f).toNat = if f then 1 else 0 := by
  cases f <;> rfl

/-! ### Keys -/

theorem lowestKey_some {s : State} {k : RegIdx} (h : lowestKey s = some k) :
    s.key.get k = true ∧ ∀ j, j < k → s.key.get j = false := by
  unfold lowestKey at h
  rw [List.find?_eq_some_iff_getElem] at h
  obtain ⟨hk, i, hi, he, hj⟩ := h
  rw [List.getElem_finRange] at he
  refine ⟨by simpa using hk, fun j hjk => ?_⟩
  have hlt : j.val < i := by rw [← he] at hjk; exact hjk
  simpa using hj j.val hlt

theorem lowestKey_none {s : State} : lowestKey s = none ↔ ∀ k, s.key.get k = false := by
  simp [lowestKey, List.find?_eq_none]

/-! ### The framebuffer -/

@[simp] theorem fbGet_allOff (x y : Nat) : fbGet Framebuffer.allOff x y = false := by
  unfold fbGet Framebuffer.allOff
  split <;> simp

theorem fbGet_fbSet (fb : Framebuffer) (x y x' y' : Nat) (p : Bool) :
    fbGet (fbSet fb x y p) x' y' = if x' = x ∧ y' = y ∧ y < 32 ∧ x < 64 then p else fbGet fb x' y' := by
  unfold fbSet
  by_cases hin : y < 32 ∧ x < 64
  · rw [dif_pos hin]
    unfold fbGet
    by_cases hin' : y' < 32 ∧ x' < 64
    · rw [dif_pos hin', dif_pos hin']
      by_cases hy : y' = y
      · subst hy
        by_cases hx : x' = x
        · subst hx; simp [hin]
        · simp [hx, Ne.symm hx]
      · simp [hy, Ne.symm hy]
    · rw [dif_neg hin', dif_neg hin', if_neg (by omega)]
  · rw [dif_neg hin, if_neg (by omega)]

/-- Two framebuffers with the same pixels are equal. -/
theorem fb_ext {f g : Framebuffer} (h : ∀ x y, x < 64 → y < 32 → fbGet f x y = fbGet g x y) : f = g := by
  apply Vector.ext
  intro y hy
  apply Vector.ext
  intro x hx
  have := h x y hx hy
  simpa [fbGet, hx, hy] using this

/-- One set sprite bit. -/
theorem fbGet_plotBit (mode : DrawMode) (px py : Nat) (acc : Framebuffer × Bool) (x y : Nat) :
    fbGet (plotBit mode px py acc).1 x y =
      if x = px ∧ y = py ∧ px ≤ 63 ∧ py ≤ 31 then plot mode (fbGet acc.1 x y) else fbGet acc.1 x y := by
  unfold plotBit
  by_cases h : px ≤ 63 ∧ py ≤ 31
  · rw [if_pos h, fbGet_fbSet]
    by_cases hxy : x = px ∧ y = py
    · obtain ⟨rfl, rfl⟩ := hxy
      rw [if_pos (by omega), if_pos (by omega)]
    · rw [if_neg (by omega), if_neg (by omega)]
  · rw [if_neg h, if_neg (by omega)]

theorem plotBit_collision (mode : DrawMode) (px py : Nat) (acc : Framebuffer × Bool) :
    (plotBit mode px py acc).2 = (acc.2 || (decide (px ≤ 63 ∧ py ≤ 31) && fbGet acc.1 px py)) := by
  unfold plotBit
  by_cases h : px ≤ 63 ∧ py ≤ 31 <;> simp [h]

end Sys2Proof.Machine
end

