-- ==== Sys2Proof/Laws/PerInstr.lean ====
section
/-!
SUPPORT. Per-instruction families. `EncodesRow`: the word an instruction is encoded as is of the instruction's own row of
R79.
-/

namespace Sys2Proof.Laws.EncodesRow

/-- The encoded word is of the row that `Instr.rowNum` names, and that row is in the opcode map (R79). -/
def Statement (i : Instr) : Prop := ∃ r ∈ opcodeMap, r.num = i.rowNum ∧ encode i &&& r.mask = r.value

/-- The row of number `n` in the map holds the encoded word. -/
theorem of_row {i : Instr} (n : Nat) (mask value : Word) (hm : ⟨n, mask, value⟩ ∈ opcodeMap) (hn : n = i.rowNum)
    (h : encode i &&& mask = value) : Statement i := ⟨⟨n, mask, value⟩, hm, hn, h⟩

theorem cls : Statement (.cls) :=
  of_row 1 0xF00F 0x0000 (by decide) rfl (by decide)

theorem ret : Statement (.ret) :=
  of_row 2 0xF00F 0x000E (by decide) rfl (by decide)

theorem jp (nnn : Addr12) : Statement (.jp nnn) :=
  of_row 3 0xF000 0x1000 (by decide) rfl (of_mask_F000 ((nib1_encNNN _ _).trans (by decide)) (by decide) (by decide) (by decide))

theorem call (nnn : Addr12) : Statement (.call nnn) :=
  of_row 4 0xF000 0x2000 (by decide) rfl (of_mask_F000 ((nib1_encNNN _ _).trans (by decide)) (by decide) (by decide) (by decide))

theorem seByte (x : RegIdx) (kk : Byte) : Statement (.seByte x kk) :=
  of_row 5 0xF000 0x3000 (by decide) rfl (of_mask_F000 ((nib1_encXKK _ _ _).trans (by decide)) (by decide) (by decide) (by decide))

theorem sneByte (x : RegIdx) (kk : Byte) : Statement (.sneByte x kk) :=
  of_row 6 0xF000 0x4000 (by decide) rfl (of_mask_F000 ((nib1_encXKK _ _ _).trans (by decide)) (by decide) (by decide) (by decide))

theorem seReg (x y : RegIdx) : Statement (.seReg x y) :=
  of_row 7 0xF000 0x5000 (by decide) rfl (of_mask_F000 ((nib1_encXYN _ _ _ _).trans (by decide)) (by decide) (by decide) (by decide))

theorem ldByte (x : RegIdx) (kk : Byte) : Statement (.ldByte x kk) :=
  of_row 8 0xF000 0x6000 (by decide) rfl (of_mask_F000 ((nib1_encXKK _ _ _).trans (by decide)) (by decide) (by decide) (by decide))

theorem addByte (x : RegIdx) (kk : Byte) : Statement (.addByte x kk) :=
  of_row 9 0xF000 0x7000 (by decide) rfl (of_mask_F000 ((nib1_encXKK _ _ _).trans (by decide)) (by decide) (by decide) (by decide))

theorem ldReg (x y : RegIdx) : Statement (.ldReg x y) :=
  of_row 10 0xF00F 0x8000 (by decide) rfl (of_mask_F00F ((nib1_encXYN _ _ _ _).trans (by decide)) (by decide) (by decide) ((nib4_encXYN _ _ _ _).trans (by decide)))

theorem orReg (x y : RegIdx) : Statement (.orReg x y) :=
  of_row 11 0xF00F 0x8001 (by decide) rfl (of_mask_F00F ((nib1_encXYN _ _ _ _).trans (by decide)) (by decide) (by decide) ((nib4_encXYN _ _ _ _).trans (by decide)))

theorem andReg (x y : RegIdx) : Statement (.andReg x y) :=
  of_row 12 0xF00F 0x8002 (by decide) rfl (of_mask_F00F ((nib1_encXYN _ _ _ _).trans (by decide)) (by decide) (by decide) ((nib4_encXYN _ _ _ _).trans (by decide)))

theorem xorReg (x y : RegIdx) : Statement (.xorReg x y) :=
  of_row 13 0xF00F 0x8003 (by decide) rfl (of_mask_F00F ((nib1_encXYN _ _ _ _).trans (by decide)) (by decide) (by decide) ((nib4_encXYN _ _ _ _).trans (by decide)))

theorem addReg (x y : RegIdx) : Statement (.addReg x y) :=
  of_row 14 0xF00F 0x8004 (by decide) rfl (of_mask_F00F ((nib1_encXYN _ _ _ _).trans (by decide)) (by decide) (by decide) ((nib4_encXYN _ _ _ _).trans (by decide)))

theorem subReg (x y : RegIdx) : Statement (.subReg x y) :=
  of_row 15 0xF00F 0x8005 (by decide) rfl (of_mask_F00F ((nib1_encXYN _ _ _ _).trans (by decide)) (by decide) (by decide) ((nib4_encXYN _ _ _ _).trans (by decide)))

theorem shr (x : RegIdx) : Statement (.shr x) :=
  of_row 16 0xF00F 0x8006 (by decide) rfl (of_mask_F00F ((nib1_encXYN _ _ _ _).trans (by decide)) (by decide) (by decide) ((nib4_encXYN _ _ _ _).trans (by decide)))

theorem subnReg (x y : RegIdx) : Statement (.subnReg x y) :=
  of_row 17 0xF00F 0x8007 (by decide) rfl (of_mask_F00F ((nib1_encXYN _ _ _ _).trans (by decide)) (by decide) (by decide) ((nib4_encXYN _ _ _ _).trans (by decide)))

theorem shl (x : RegIdx) : Statement (.shl x) :=
  of_row 18 0xF00F 0x800E (by decide) rfl (of_mask_F00F ((nib1_encXYN _ _ _ _).trans (by decide)) (by decide) (by decide) ((nib4_encXYN _ _ _ _).trans (by decide)))

theorem sneReg (x y : RegIdx) : Statement (.sneReg x y) :=
  of_row 19 0xF000 0x9000 (by decide) rfl (of_mask_F000 ((nib1_encXYN _ _ _ _).trans (by decide)) (by decide) (by decide) (by decide))

theorem ldI (nnn : Addr12) : Statement (.ldI nnn) :=
  of_row 20 0xF000 0xA000 (by decide) rfl (of_mask_F000 ((nib1_encNNN _ _).trans (by decide)) (by decide) (by decide) (by decide))

theorem jpV0 (nnn : Addr12) : Statement (.jpV0 nnn) :=
  of_row 21 0xF000 0xB000 (by decide) rfl (of_mask_F000 ((nib1_encNNN _ _).trans (by decide)) (by decide) (by decide) (by decide))

theorem rnd (x : RegIdx) (kk : Byte) : Statement (.rnd x kk) :=
  of_row 22 0xF000 0xC000 (by decide) rfl (of_mask_F000 ((nib1_encXKK _ _ _).trans (by decide)) (by decide) (by decide) (by decide))

theorem drw (x y : RegIdx) (n : Nat) : Statement (.drw x y n) :=
  of_row 23 0xF000 0xD000 (by decide) rfl (of_mask_F000 ((nib1_encXYN _ _ _ _).trans (by decide)) (by decide) (by decide) (by decide))

theorem skp (x : RegIdx) : Statement (.skp x) :=
  of_row 24 0xF0FF 0xE09E (by decide) rfl (of_mask_F0FF ((nib1_encXKK _ _ _).trans (by decide)) (by decide) ((fieldKK_encXKK _ _ _).trans (by decide)))

theorem sknp (x : RegIdx) : Statement (.sknp x) :=
  of_row 25 0xF0FF 0xE0A1 (by decide) rfl (of_mask_F0FF ((nib1_encXKK _ _ _).trans (by decide)) (by decide) ((fieldKK_encXKK _ _ _).trans (by decide)))

theorem ldVxDT (x : RegIdx) : Statement (.ldVxDT x) :=
  of_row 26 0xF0FF 0xF007 (by decide) rfl (of_mask_F0FF ((nib1_encXKK _ _ _).trans (by decide)) (by decide) ((fieldKK_encXKK _ _ _).trans (by decide)))

theorem ldVxK (x : RegIdx) : Statement (.ldVxK x) :=
  of_row 27 0xF0FF 0xF00A (by decide) rfl (of_mask_F0FF ((nib1_encXKK _ _ _).trans (by decide)) (by decide) ((fieldKK_encXKK _ _ _).trans (by decide)))

theorem ldDTVx (x : RegIdx) : Statement (.ldDTVx x) :=
  of_row 28 0xF0FF 0xF015 (by decide) rfl (of_mask_F0FF ((nib1_encXKK _ _ _).trans (by decide)) (by decide) ((fieldKK_encXKK _ _ _).trans (by decide)))

theorem ldSTVx (x : RegIdx) : Statement (.ldSTVx x) :=
  of_row 29 0xF0FF 0xF018 (by decide) rfl (of_mask_F0FF ((nib1_encXKK _ _ _).trans (by decide)) (by decide) ((fieldKK_encXKK _ _ _).trans (by decide)))

theorem addI (x : RegIdx) : Statement (.addI x) :=
  of_row 30 0xF0FF 0xF01E (by decide) rfl (of_mask_F0FF ((nib1_encXKK _ _ _).trans (by decide)) (by decide) ((fieldKK_encXKK _ _ _).trans (by decide)))

theorem ldF (x : RegIdx) : Statement (.ldF x) :=
  of_row 31 0xF0FF 0xF029 (by decide) rfl (of_mask_F0FF ((nib1_encXKK _ _ _).trans (by decide)) (by decide) ((fieldKK_encXKK _ _ _).trans (by decide)))

theorem ldB (x : RegIdx) : Statement (.ldB x) :=
  of_row 32 0xF0FF 0xF033 (by decide) rfl (of_mask_F0FF ((nib1_encXKK _ _ _).trans (by decide)) (by decide) ((fieldKK_encXKK _ _ _).trans (by decide)))

theorem ldMemVx (x : RegIdx) : Statement (.ldMemVx x) :=
  of_row 33 0xF0FF 0xF055 (by decide) rfl (of_mask_F0FF ((nib1_encXKK _ _ _).trans (by decide)) (by decide) ((fieldKK_encXKK _ _ _).trans (by decide)))

theorem ldVxMem (x : RegIdx) : Statement (.ldVxMem x) :=
  of_row 34 0xF0FF 0xF065 (by decide) rfl (of_mask_F0FF ((nib1_encXKK _ _ _).trans (by decide)) (by decide) ((fieldKK_encXKK _ _ _).trans (by decide)))

end Sys2Proof.Laws.EncodesRow
end

