-- ==== Sys2Proof/Laws/Sprite.lean ====
section
/-!
SUPPORT. What drawing a sprite row, and a whole sprite, does to each pixel and to the collision: the sequential drawing
of R101 visits a pixel at most once.
-/

namespace Sys2Proof.Machine

/-- The columns `cs` of one row, drawn in order, for columns that are all different. -/
theorem foldl_plotBit (mode : DrawMode) (x0 py : Nat) (row : Byte) (cs : List Nat) (hcs : cs.Nodup)
    (acc : Framebuffer × Bool) (x y : Nat) :
    let out := cs.foldl (fun a c => if row.getLsbD (7 - c) then plotBit mode (x0 + c) py a else a) acc
    fbGet out.1 x y =
        (if x ≤ 63 ∧ y ≤ 31 ∧ y = py ∧ ∃ c ∈ cs, x = x0 + c ∧ row.getLsbD (7 - c) = true
          then plot mode (fbGet acc.1 x y) else fbGet acc.1 x y) ∧
      (out.2 = true ↔ acc.2 = true ∨
        ∃ c ∈ cs, row.getLsbD (7 - c) = true ∧ x0 + c ≤ 63 ∧ py ≤ 31 ∧ fbGet acc.1 (x0 + c) py = true) := by
  induction cs generalizing acc with
  | nil => simp
  | cons c cs ih =>
    obtain ⟨hc, hcs'⟩ := List.nodup_cons.1 hcs
    simp only [List.foldl_cons]
    obtain ⟨h1, h2⟩ := ih hcs' (if row.getLsbD (7 - c) then plotBit mode (x0 + c) py acc else acc)
    by_cases hb : row.getLsbD (7 - c) = true
    · rw [if_pos hb] at h1 h2 ⊢
      constructor
      · rw [h1, fbGet_plotBit]
        by_cases hx : x = x0 + c
        · subst hx
          have hno : ¬∃ d ∈ cs, x0 + c = x0 + d ∧ row.getLsbD (7 - d) = true := by
            rintro ⟨d, hd, he, -⟩
            exact hc (by rw [show c = d by omega]; exact hd)
          rw [if_neg (fun h => hno h.2.2.2)]
          by_cases hin : x0 + c ≤ 63 ∧ y ≤ 31 ∧ y = py
          · obtain ⟨hx63, hy31, rfl⟩ := hin
            rw [if_pos ⟨rfl, rfl, hx63, hy31⟩, if_pos ⟨hx63, hy31, rfl, c, List.mem_cons_self, rfl, hb⟩]
          · rw [if_neg (by omega), if_neg (fun h => hin ⟨h.1, h.2.1, h.2.2.1⟩)]
        · rw [if_neg (c := x = x0 + c ∧ _) (fun h => hx h.1)]
          have hiff : (∃ d ∈ c :: cs, x = x0 + d ∧ row.getLsbD (7 - d) = true) ↔
              ∃ d ∈ cs, x = x0 + d ∧ row.getLsbD (7 - d) = true := by
            constructor
            · rintro ⟨d, hd, he, hr⟩
              rcases List.mem_cons.1 hd with rfl | hd
              · exact absurd he hx
              · exact ⟨d, hd, he, hr⟩
            · rintro ⟨d, hd, he, hr⟩
              exact ⟨d, List.mem_cons_of_mem _ hd, he, hr⟩
          simp only [hiff]
      · rw [h2, plotBit_collision]
        constructor
        · rintro (h | ⟨d, hd, hr, hx, hy, hf⟩)
          · simp only [Bool.or_eq_true, Bool.and_eq_true, decide_eq_true_eq] at h
            rcases h with h | ⟨⟨hx, hy⟩, hf⟩
            · exact .inl h
            · exact .inr ⟨c, List.mem_cons_self, hb, hx, hy, hf⟩
          · rw [fbGet_plotBit, if_neg (by rintro ⟨he, -⟩; exact hc (by rw [show c = d by omega]; exact hd))] at hf
            exact .inr ⟨d, List.mem_cons_of_mem _ hd, hr, hx, hy, hf⟩
        · rintro (h | ⟨d, hd, hr, hx, hy, hf⟩)
          · exact .inl (by simp [h])
          · rcases List.mem_cons.1 hd with rfl | hd
            · exact .inl (by simp [hx, hy, hf])
            · refine .inr ⟨d, hd, hr, hx, hy, ?_⟩
              rw [fbGet_plotBit, if_neg (by rintro ⟨he, -⟩; exact hc (by rw [show c = d by omega]; exact hd))]
              exact hf
    · rw [if_neg hb] at h1 h2 ⊢
      constructor
      · rw [h1]
        have hiff : (∃ d ∈ c :: cs, x = x0 + d ∧ row.getLsbD (7 - d) = true) ↔
            ∃ d ∈ cs, x = x0 + d ∧ row.getLsbD (7 - d) = true := by
          constructor
          · rintro ⟨d, hd, he, hr⟩
            rcases List.mem_cons.1 hd with rfl | hd
            · exact absurd hr hb
            · exact ⟨d, hd, he, hr⟩
          · rintro ⟨d, hd, he, hr⟩
            exact ⟨d, List.mem_cons_of_mem _ hd, he, hr⟩
        simp only [hiff]
      · rw [h2]
        constructor
        · rintro (h | ⟨d, hd, hr⟩)
          · exact .inl h
          · exact .inr ⟨d, List.mem_cons_of_mem _ hd, hr⟩
        · rintro (h | ⟨d, hd, hr⟩)
          · exact .inl h
          · rcases List.mem_cons.1 hd with rfl | hd
            · exact absurd hr.1 hb
            · exact .inr ⟨d, hd, hr⟩

/-- One sprite row (R101, R103, R104, R105): a pixel of row `py` under a set, unclipped bit is plotted, and every other
one is left alone. -/
theorem fbGet_drawRow (mode : DrawMode) (x0 py : Nat) (row : Byte) (acc : Framebuffer × Bool) (x y : Nat) :
    fbGet (drawRow mode x0 py row acc).1 x y =
      if x ≤ 63 ∧ y ≤ 31 ∧ y = py ∧ x0 ≤ x ∧ x < x0 + 8 ∧ row.getLsbD (7 - (x - x0)) = true
      then plot mode (fbGet acc.1 x y) else fbGet acc.1 x y := by
  have h := (foldl_plotBit mode x0 py row (List.range 8) List.nodup_range acc x y).1
  have hiff : (∃ c ∈ List.range 8, x = x0 + c ∧ row.getLsbD (7 - c) = true) ↔
      (x0 ≤ x ∧ x < x0 + 8 ∧ row.getLsbD (7 - (x - x0)) = true) := by
    constructor
    · rintro ⟨c, hc, rfl, hr⟩
      rw [List.mem_range] at hc
      exact ⟨by omega, by omega, by simpa using hr⟩
    · rintro ⟨h1, h2, hr⟩
      exact ⟨x - x0, List.mem_range.2 (by omega), by omega, hr⟩
  simp only [hiff] at h
  exact h

/-- The row's collision: a set, unclipped bit on a pixel that was on. -/
theorem drawRow_collision (mode : DrawMode) (x0 py : Nat) (row : Byte) (acc : Framebuffer × Bool) :
    (drawRow mode x0 py row acc).2 = true ↔ acc.2 = true ∨
      ∃ x, x0 ≤ x ∧ x < x0 + 8 ∧ row.getLsbD (7 - (x - x0)) = true ∧ x ≤ 63 ∧ py ≤ 31 ∧ fbGet acc.1 x py = true := by
  have h := (foldl_plotBit mode x0 py row (List.range 8) List.nodup_range acc 0 0).2
  refine h.trans (or_congr_right ?_)
  constructor
  · rintro ⟨c, hc, hr, hx, hy, hf⟩
    rw [List.mem_range] at hc
    exact ⟨x0 + c, by omega, by omega, by simpa using hr, hx, hy, hf⟩
  · rintro ⟨x, h1, h2, hr, hx, hy, hf⟩
    exact ⟨x - x0, List.mem_range.2 (by omega), hr, by omega, hy, by rwa [show x0 + (x - x0) = x by omega]⟩

/-- A whole sprite from screen row `py` on: the sprite's row `y - py` touches screen row `y` only. -/
theorem fbGet_drawRows (mode : DrawMode) (x0 : Nat) (rows : List Byte) (py : Nat) (acc : Framebuffer × Bool) (x y : Nat) :
    fbGet (drawRows mode x0 py rows acc).1 x y =
      if x ≤ 63 ∧ y ≤ 31 ∧ py ≤ y ∧ y < py + rows.length ∧ x0 ≤ x ∧ x < x0 + 8 ∧
          (rows.getD (y - py) 0).getLsbD (7 - (x - x0)) = true
      then plot mode (fbGet acc.1 x y) else fbGet acc.1 x y := by
  induction rows generalizing py acc with
  | nil => rw [if_neg (by simp only [List.length_nil]; omega)]; rfl
  | cons row rows ih =>
    rw [drawRows, ih, fbGet_drawRow]
    by_cases hy : y = py
    · subst hy
      rw [if_neg (by omega)]
      have hiff : (x ≤ 63 ∧ y ≤ 31 ∧ y = y ∧ x0 ≤ x ∧ x < x0 + 8 ∧ row.getLsbD (7 - (x - x0)) = true) ↔
          (x ≤ 63 ∧ y ≤ 31 ∧ y ≤ y ∧ y < y + (row :: rows).length ∧ x0 ≤ x ∧ x < x0 + 8 ∧
            ((row :: rows).getD (y - y) 0).getLsbD (7 - (x - x0)) = true) := by
        simp
      exact if_congr hiff rfl rfl
    · rw [if_neg (c := x ≤ 63 ∧ y ≤ 31 ∧ y = py ∧ _) (fun h => hy h.2.2.1)]
      by_cases hlt : py < y
      · have hget : (row :: rows).getD (y - py) 0 = rows.getD (y - (py + 1)) 0 := by
          rw [show y - py = y - (py + 1) + 1 by omega, List.getD_cons_succ]
        have e1 : (py + 1 ≤ y) = (py ≤ y) := propext ⟨fun _ => by omega, fun _ => by omega⟩
        have e2 : (y < py + 1 + rows.length) = (y < py + (row :: rows).length) := by
          simp only [List.length_cons]
          exact propext ⟨fun _ => by omega, fun _ => by omega⟩
        rw [hget]
        simp only [e1, e2]
      · rw [if_neg (by omega), if_neg (by omega)]

/-- The sprite's collision: a set, unclipped bit on a pixel that was on before the sprite (R105). -/
theorem drawRows_collision (mode : DrawMode) (x0 : Nat) (rows : List Byte) (py : Nat) (acc : Framebuffer × Bool) :
    (drawRows mode x0 py rows acc).2 = true ↔ acc.2 = true ∨
      ∃ x y, x ≤ 63 ∧ y ≤ 31 ∧ py ≤ y ∧ y < py + rows.length ∧ x0 ≤ x ∧ x < x0 + 8 ∧
        (rows.getD (y - py) 0).getLsbD (7 - (x - x0)) = true ∧ fbGet acc.1 x y = true := by
  induction rows generalizing py acc with
  | nil =>
    refine ⟨.inl, ?_⟩
    rintro (h | ⟨x, y, -, -, h1, h2, -⟩)
    · exact h
    · simp only [List.length_nil] at h2; omega
  | cons row rows ih =>
    rw [drawRows, ih, drawRow_collision]
    constructor
    · rintro ((h | ⟨x, h1, h2, hb, hx, hy, hf⟩) | ⟨x, y, hx, hy, h1, h2, h3, h4, hb, hf⟩)
      · exact .inl h
      · exact .inr ⟨x, py, hx, hy, by omega, by simp, h1, h2, by simpa using hb, hf⟩
      · rw [fbGet_drawRow, if_neg (by rintro ⟨-, -, he, -⟩; omega)] at hf
        refine .inr ⟨x, y, hx, hy, by omega, by simp only [List.length_cons]; omega, h3, h4, ?_, hf⟩
        rwa [show y - py = y - (py + 1) + 1 by omega, List.getD_cons_succ]
    · rintro (h | ⟨x, y, hx, hy, h1, h2, h3, h4, hb, hf⟩)
      · exact .inl (.inl h)
      · simp only [List.length_cons] at h2
        by_cases he : y = py
        · subst he
          exact .inl (.inr ⟨x, h3, h4, by simpa using hb, hx, hy, hf⟩)
        · refine .inr ⟨x, y, hx, hy, by omega, by omega, h3, h4, ?_, ?_⟩
          · rwa [show y - py = y - (py + 1) + 1 by omega, List.getD_cons_succ] at hb
          · rwa [fbGet_drawRow, if_neg (by rintro ⟨-, -, h', -⟩; exact he h')]

end Sys2Proof.Machine
end

