-- ==== Sys2Proof/Laws/Step.lean ====
section
/-!
SUPPORT. What a step can do, said once: every step that answers is a waiting step or runs one decoded instruction.
-/

namespace Sys2Proof.Machine

theorem finishStep_next {r : Result} {t : State} :
    finishStep r = .next t ↔ ∃ u, r = .next u ∧ t = closeStep u := by
  cases r <;> simp [finishStep, eq_comm]

theorem finishStep_fault {r : Result} {f : Fault} : finishStep r = .fault f ↔ r = .fault f := by
  cases r <;> simp [finishStep]

/-- A step that answers a next state is a waiting step, or runs one instruction between the start and the end of the
step. -/
theorem step_next_cases {s t : State} (h : step s = .next t) :
    (∃ x, s.drv = .waitingForKey x ∧ t = closeStep (resolveWait x (beginStep s))) ∨
    (∃ i u, Runs s i ∧ exec i (advancePC (beginStep s)) = .next u ∧ t = closeStep u) := by
  unfold step cycle at h
  split at h
  · next x hd => exact .inl ⟨x, hd, by simpa using h.symm⟩
  · next hd =>
    unfold runningStep at h
    split at h
    · next hr =>
      unfold runWord at h
      split at h
      · simp [raise] at h
      · next i hi =>
        obtain ⟨u, hu, ht⟩ := finishStep_next.1 h
        rw [inRange_iff] at hr
        exact .inr ⟨i, u, ⟨hd, by omega, hi⟩, hu, ht⟩
    · simp [raise] at h

/-- A step that faults is a running step: the fetch, the decoder or the instruction's own check raised the error. -/
theorem step_fault_cases {s : State} {f : Fault} (h : step s = .fault f) :
    s.drv = .running ∧
      ((0xFFF ≤ s.pc.toNat ∧ f = rangeFault s.pc.toNat) ∨
       (s.pc.toNat ≤ 0xFFE ∧ ∃ u, decode (wordAt s.mem s.pc.toNat) = .unknownOpcode u ∧ f = .unknownOpcode u) ∨
       (∃ i, Runs s i ∧ exec i (advancePC (beginStep s)) = .fault f)) := by
  unfold step cycle at h
  split at h
  · simp at h
  · next hd =>
    refine ⟨hd, ?_⟩
    unfold runningStep at h
    split at h
    · next hr =>
      rw [inRange_iff] at hr
      unfold runWord at h
      split at h
      · next u hu => exact .inr (.inl ⟨by omega, u, hu, by simpa [raise] using h.symm⟩)
      · next i hi => exact .inr (.inr ⟨i, ⟨hd, by omega, hi⟩, finishStep_fault.1 h⟩)
    · next hr =>
      rw [inRange_iff] at hr
      exact .inl ⟨by omega, by simpa [raise] using h.symm⟩

/-- At most one instruction runs in a step. -/
theorem Runs.unique {s : State} {i j : Instr} (hi : Runs s i) (hj : Runs s j) : i = j := by
  have := hi.2.2.symm.trans hj.2.2
  simpa using this

/-- A waiting step runs no instruction. -/
theorem Runs.not_waiting {s : State} {i : Instr} {x : RegIdx} (hi : Runs s i) : s.drv ≠ .waitingForKey x := by
  rw [hi.1]; simp

/-- No instruction touches the keys, the parameters or the step's input. -/
theorem exec_keeps_inputs {i : Instr} {s t : State} (h : exec i s = .next t) :
    t.key = s.key ∧ t.cfg = s.cfg ∧ t.rand = s.rand ∧ t.draws = s.draws := by
  have flagged : ∀ (x : RegIdx) (r : Byte) (f : Bool), t = writeFlagged s x r f →
      t.key = s.key ∧ t.cfg = s.cfg ∧ t.rand = s.rand ∧ t.draws = s.draws := by
    rintro x r f rfl
    rw [writeFlagged_eq]
    exact ⟨rfl, rfl, rfl, rfl⟩
  have skips : ∀ c : Bool, t = skipIf c s →
      t.key = s.key ∧ t.cfg = s.cfg ∧ t.rand = s.rand ∧ t.draws = s.draws := by
    rintro c rfl
    cases c <;> exact ⟨rfl, rfl, rfl, rfl⟩
  cases i <;> simp only [exec] at h
  case ret =>
    unfold execRet at h
    split at h
    · simp [raise] at h
    · next a u hp =>
      obtain ⟨hs, -, rfl⟩ := popStack_some hp
      cases h
      exact ⟨rfl, rfl, rfl, rfl⟩
  case call =>
    unfold execCall at h
    split at h
    · simp [raise] at h
    · next u hp =>
      obtain ⟨hs, rfl⟩ := pushStack_some hp
      cases h
      exact ⟨rfl, rfl, rfl, rfl⟩
  case drw => obtain ⟨-, rfl⟩ := guardRange_next.1 h; exact ⟨rfl, rfl, rfl, rfl⟩
  case ldB => obtain ⟨-, rfl⟩ := guardRange_next.1 h; exact ⟨rfl, rfl, rfl, rfl⟩
  case ldMemVx => obtain ⟨-, rfl⟩ := guardRange_next.1 h; exact ⟨rfl, rfl, rfl, rfl⟩
  case ldVxMem => obtain ⟨-, rfl⟩ := guardRange_next.1 h; exact ⟨rfl, rfl, rfl, rfl⟩
  case addReg => exact flagged _ _ _ (by simpa [execAddReg] using h.symm)
  case subReg => exact flagged _ _ _ (by simpa [execSubReg] using h.symm)
  case subnReg => exact flagged _ _ _ (by simpa [execSubnReg] using h.symm)
  case shr => exact flagged _ _ _ (by simpa [execShr] using h.symm)
  case shl => exact flagged _ _ _ (by simpa [execShl] using h.symm)
  case seByte => exact skips _ (by simpa [execSeByte] using h.symm)
  case sneByte => exact skips _ (by simpa [execSneByte] using h.symm)
  case seReg => exact skips _ (by simpa [execSeReg] using h.symm)
  case sneReg => exact skips _ (by simpa [execSneReg] using h.symm)
  case skp => exact skips _ (by simpa [execSkp] using h.symm)
  case sknp => exact skips _ (by simpa [execSknp] using h.symm)
  all_goals (cases h; exact ⟨rfl, rfl, rfl, rfl⟩)

end Sys2Proof.Machine
end

