-- ==== Sys2Proof/Tests/Slice0.lean ====
section
/-!
SUPPORT. Tests: the WellFormed smoke test, every form's decoding by a word written out from R79, the vectors of
spec/95_test_vectors.md (named by their number there), and a witness for the hypotheses of each statement.
-/

namespace Sys2Proof.Tests

open Sys2Proof.Machine

/-! ### WellFormed (R73) -/

theorem test_wf_refuses_sixteen_rows : (Instr.drw 1 2 16).wf = false := by decide
theorem test_wf_admits_fifteen_rows : (Instr.drw 1 2 15).wf = true := by decide

/-! ### Decoding: words written out from R79's patterns and R83's canonical words -/

theorem test_decode_display : decode 0x00E0 = .instr .cls ∧ decode 0xD12F = .instr (.drw 1 2 15) := by decide

theorem test_decode_flow :
    decode 0x00EE = .instr .ret ∧ decode 0x1ABC = .instr (.jp 0xABC) ∧ decode 0x2ABC = .instr (.call 0xABC) ∧
    decode 0x3A12 = .instr (.seByte 10 0x12) ∧ decode 0x4A12 = .instr (.sneByte 10 0x12) ∧
    decode 0x5AB0 = .instr (.seReg 10 11) ∧ decode 0x9AB0 = .instr (.sneReg 10 11) ∧
    decode 0xB123 = .instr (.jpV0 0x123) := by decide

theorem test_decode_alu :
    decode 0x6A42 = .instr (.ldByte 10 0x42) ∧ decode 0x7103 = .instr (.addByte 1 0x03) ∧
    decode 0x8AB0 = .instr (.ldReg 10 11) ∧ decode 0x8AB1 = .instr (.orReg 10 11) ∧
    decode 0x8AB2 = .instr (.andReg 10 11) ∧ decode 0x8AB3 = .instr (.xorReg 10 11) ∧
    decode 0x8AB4 = .instr (.addReg 10 11) ∧ decode 0x8AB5 = .instr (.subReg 10 11) ∧
    decode 0x8A06 = .instr (.shr 10) ∧ decode 0x8AB7 = .instr (.subnReg 10 11) ∧
    decode 0x8A0E = .instr (.shl 10) ∧ decode 0xC30F = .instr (.rnd 3 0x0F) := by decide

theorem test_decode_index :
    decode 0xA2F0 = .instr (.ldI 0x2F0) ∧ decode 0xF11E = .instr (.addI 1) ∧ decode 0xF229 = .instr (.ldF 2) ∧
    decode 0xF333 = .instr (.ldB 3) ∧ decode 0xF455 = .instr (.ldMemVx 4) ∧
    decode 0xF565 = .instr (.ldVxMem 5) := by decide

theorem test_decode_keys_timers :
    decode 0xE59E = .instr (.skp 5) ∧ decode 0xE5A1 = .instr (.sknp 5) ∧ decode 0xF307 = .instr (.ldVxDT 3) ∧
    decode 0xF20A = .instr (.ldVxK 2) ∧ decode 0xF015 = .instr (.ldDTVx 0) ∧ decode 0xFF18 = .instr (.ldSTVx 15) := by
  decide

/-- The decoder vectors of 95 section 2.1: don't-care fields and unknown words. -/
theorem test_decode_dont_care :
    decode 0x0000 = .instr .cls ∧ decode 0x0AB0 = .instr .cls ∧ decode 0x0ABE = .instr .ret ∧
    decode 0x5121 = .instr (.seReg 1 2) ∧ decode 0x9121 = .instr (.sneReg 1 2) ∧ decode 0x81F6 = .instr (.shr 1) := by
  decide

theorem test_decode_unknown :
    decode 0x0123 = .unknownOpcode 0x0123 ∧ decode 0x00E1 = .unknownOpcode 0x00E1 ∧
    decode 0x8008 = .unknownOpcode 0x8008 ∧ decode 0x800F = .unknownOpcode 0x800F ∧
    decode 0xE0A0 = .unknownOpcode 0xE0A0 ∧ decode 0xF000 = .unknownOpcode 0xF000 ∧
    decode 0xF0FF = .unknownOpcode 0xF0FF := by decide

theorem test_decode_bytes : decodeBytes [0x6A, 0x42, 0x00] = some (.instr (.ldByte 10 0x42), [0x00]) ∧
    decodeBytes [0x6A] = none := by decide

theorem test_encode_canonical :
    encode .cls = 0x00E0 ∧ encode .ret = 0x00EE ∧ encode (.seReg 1 2) = 0x5120 ∧ encode (.shr 1) = 0x8106 ∧
    encode (.drw 13 1 5) = 0xDD15 ∧ encode (.ldVxMem 15) = 0xFF65 := by decide

/-! ### One step of one word, from reset with a few registers set -/

/-- The reset state with V[x] set, one pair a register. -/
def withV (rs : List (RegIdx × Byte)) (s : State) : State := rs.foldl (fun t p => writeV t p.1 p.2) s

/-- One step that runs the word `w` from `s`. -/
def stepWord (s : State) (w : Nat) : Result := step (s.withFetchWord 16 w)

/-- What a step left, when it answers. -/
def after (r : Result) (p : State → Bool) : Bool :=
  match r with
  | .next t => p t
  | .fault _ => false
  | .refused _ => false

/-- The step fails with this error. -/
def failsWith (r : Result) (f : Fault) : Bool :=
  match r with
  | .next _ => false
  | .fault g => decide (f = g)
  | .refused _ => false

/-- Memory with bytes at an address. -/
def withBytes (a : Nat) (bs : List Byte) (s : State) : State := setMem s (writeBytes s.mem a bs)

abbrev r0 : State := State.reset

theorem test_T1_ld_dt_then_tick : after (stepWord (withV [(0, 5)] r0) 0xF015) (fun t => t.dt == 4 && t.pc == 0x202) := by
  decide
theorem test_T2_timers_clamp :
    after (stepWord { r0 with dt := 1, st := 2 } 0xF015) (fun t => t.dt == 0 && t.st == 1) := by decide
theorem test_T3_ld_vx_dt : after (stepWord { r0 with dt := 0x3C } 0xF307) (fun t => readV t 3 == 0x3C && t.dt == 0x3B) := by
  decide
theorem test_T4_ld_st : after (stepWord (withV [(0, 1)] r0) 0xF018) (fun t => t.st == 0) := by decide
theorem test_T5_wait_ticks : after (step { r0 with drv := .waitingForKey 2, dt := 3 })
    (fun t => t.dt == 2 && t.pc == 0x200 && t.drv == .waitingForKey 2) := by decide
theorem test_T6_wait_lowest : after (step (setKey (setKey { r0 with drv := .waitingForKey 2 } 9 true) 5 true))
    (fun t => readV t 2 == 5 && t.drv == .running && t.pc == 0x200 && t.key.get 5) := by decide
theorem test_T7_odd_pc : after (step (withBytes 0x201 [0x61, 0x23] { r0 with pc := 0x201 }))
    (fun t => readV t 1 == 0x23 && t.pc == 0x203) := by decide
theorem test_T8_fetch_at_top : failsWith (step { r0 with pc := 0xFFF }) (.outOfBounds 0x1000) := by decide
theorem test_T9_fetch_above : failsWith (step { r0 with pc := 0x10FE }) (.outOfBounds 0x10FE) := by decide
theorem test_T10_unknown : failsWith (stepWord { r0 with dt := 5 } 0x8008) (.unknownOpcode 0x8008) := by decide

/-- The pixels of a w by h corner, as lists of rows. -/
def corner (w h : Nat) (t : State) : List (List Bool) := (List.range h).map fun y => (List.range w).map fun x => fbGet t.fb x y

theorem test_DR1_glyph : after (stepWord { r0 with i := 0x050 } 0xD015) (fun t =>
    corner 5 5 t == [[true, true, true, true, false], [true, false, false, true, false], [true, false, false, true, false],
      [true, false, false, true, false], [true, true, true, true, false]] && readV t 15 == 0 && t.fbChanged) := by decide
theorem test_DR2_clip : after (stepWord (withV [(0, 62), (1, 31)] (withBytes 0x300 [0xFF, 0xFF] { r0 with i := 0x300 })) 0xD012)
    (fun t => fbGet t.fb 62 31 && fbGet t.fb 63 31 && !fbGet t.fb 0 31 && !fbGet t.fb 62 0 && readV t 15 == 0) := by decide
theorem test_DR3_placement_wraps : after (stepWord (withV [(0, 69), (1, 35)] (withBytes 0x300 [0x80] { r0 with i := 0x300 })) 0xD011)
    (fun t => fbGet t.fb 5 3) := by decide
theorem test_DR4_range : failsWith (stepWord { r0 with i := 0xFFF } 0xD012) (.outOfBounds 0x1000) := by decide
theorem test_DR5_no_rows : after (stepWord (withV [(15, 7)] { r0 with i := 0xFFFF }) 0xD010)
    (fun t => readV t 15 == 0 && t.fbChanged) := by decide
theorem test_DR6_coordinate_is_old_vf : after (stepWord (withV [(15, 8)] { r0 with i := 0x050 }) 0xDF01)
    (fun t => fbGet t.fb 8 0 && fbGet t.fb 11 0 && !fbGet t.fb 0 0 && readV t 15 == 0) := by decide

/-- 0xFF drawn at (0, 0) over eight pixels that are on (S6, DR7). -/
def secondDraw (mode : DrawMode) : Result :=
  stepWord { withBytes 0x300 [0xFF] r0 with
    i := 0x300, cfg := { Config.default with drawMode := mode }, fb := (drawRow .forceOn 0 0 0xFF (Framebuffer.allOff, false)).1 } 0xD011

theorem test_S6_collision_force_on : after (secondDraw .forceOn) (fun t => readV t 15 == 1 && fbGet t.fb 0 0 && fbGet t.fb 7 0) := by
  decide
theorem test_DR7_collision_xor : after (secondDraw .xor) (fun t => readV t 15 == 1 && !fbGet t.fb 0 0 && !fbGet t.fb 7 0) := by
  decide
theorem test_S5_cls : after (stepWord { r0 with fb := (drawRow .forceOn 0 0 0xFF (Framebuffer.allOff, false)).1 } 0x00E0)
    (fun t => !fbGet t.fb 0 0 && !fbGet t.fb 7 0 && t.fbChanged) := by decide

theorem test_FL1_jp : after (stepWord r0 0x1234) (fun t => t.pc == 0x234) := by decide
theorem test_FL2_call : after (stepWord r0 0x2300) (fun t => t.stack.get 0 == 0x202 && t.sp == 1 && t.pc == 0x300) := by decide
theorem test_FL3_ret : after (stepWord { r0 with sp := 1, stack := r0.stack.set 0 0x204 } 0x00EE)
    (fun t => t.sp == 0 && t.pc == 0x204 && t.stack.get 0 == 0x204) := by decide
theorem test_FL4_underflow : failsWith (stepWord r0 0x00EE) .stackUnderflow := by decide
theorem test_FL5_overflow : failsWith (stepWord { r0 with sp := 16 } 0x2300) .stackOverflow := by decide
theorem test_FL6_FL7_byte_skips : after (stepWord (withV [(3, 0x12)] r0) 0x3312) (fun t => t.pc == 0x204) ∧
    after (stepWord (withV [(3, 0x12)] r0) 0x4312) (fun t => t.pc == 0x202) := by decide
theorem test_FL8_FL9_register_skips : after (stepWord (withV [(1, 7), (2, 7)] r0) 0x5120) (fun t => t.pc == 0x204) ∧
    after (stepWord (withV [(1, 7), (2, 8)] r0) 0x9120) (fun t => t.pc == 0x204) := by decide
theorem test_FL10_FL11_jp_v0 : after (stepWord (withV [(0, 4)] r0) 0xB300) (fun t => t.pc == 0x304) ∧
    after (stepWord (withV [(0, 0xFF)] r0) 0xBFFF) (fun t => t.pc == 0x10FE) := by decide

/-- An ALU word, and the two registers it leaves. -/
def alu (s : State) (w : Nat) (x : RegIdx) (res vf : Byte) : Bool := after (stepWord s w) fun t => readV t x == res && readV t 15 == vf

theorem test_A1_A3 : alu (withV [(1, 0xFE), (15, 9)] r0) 0x7103 1 0x01 9 ∧ alu (withV [(1, 0x0F), (2, 0xF0)] r0) 0x8121 1 0xFF 0 ∧
    alu (withV [(1, 0x3C), (2, 0x0F)] r0) 0x8122 1 0x0C 0 ∧ alu (withV [(1, 0x3C), (2, 0x0F)] r0) 0x8123 1 0x33 0 := by decide
theorem test_A4_A7 : alu (withV [(1, 7)] r0) 0x8115 1 0 0 ∧ alu (withV [(1, 7)] r0) 0x8117 1 0 0 ∧
    alu (withV [(2, 1)] r0) 0x8125 1 0xFF 0 ∧ alu (withV [(1, 1)] r0) 0x8127 1 0xFF 0 := by decide
theorem test_A8_A11 : alu (withV [(1, 0x80)] r0) 0x8114 1 0 1 ∧ alu (withV [(1, 1)] r0) 0x8116 1 0 1 ∧
    alu (withV [(1, 0x80)] r0) 0x811E 1 0 1 ∧ alu (withV [(1, 4), (2, 0xFF)] r0) 0x8126 1 2 0 := by decide
theorem test_S1_S2_S3 : alu (withV [(1, 0xFF), (2, 1)] r0) 0x8124 1 0 1 ∧ alu (withV [(1, 5), (2, 0x0A)] r0) 0x8125 1 0xFB 0 ∧
    alu (withV [(1, 3)] r0) 0x8106 1 1 1 ∧ alu (withV [(1, 0x0A), (2, 5)] r0) 0x8127 1 0xFB 0 := by decide
theorem test_A17_old_vf_is_the_operand : alu (withV [(1, 0x10), (15, 1)] r0) 0x81F4 1 0x11 0 := by decide
theorem test_loads : alu r0 0x6A42 10 0x42 0 ∧ alu (withV [(2, 0x99)] r0) 0x8120 1 0x99 0 := by decide

/-- The state of A12 to A16, under either VF_WRITE_ORDER. -/
def vfState (o : VfWriteOrder) (vf v1 : Byte) : State :=
  withV [(15, vf), (1, v1)] { r0 with cfg := { Config.default with vfWriteOrder := o } }

theorem test_A12_A16_flag_last : alu (vfState .flagLast 0xFF 2) 0x8F14 15 1 1 ∧ alu (vfState .flagLast 5 3) 0x8F15 15 1 1 ∧
    alu (vfState .flagLast 3 0) 0x8F06 15 1 1 ∧ alu (vfState .flagLast 0x81 0) 0x8F0E 15 1 1 ∧
    alu (vfState .flagLast 5 3) 0x8F17 15 0 0 := by decide
theorem test_A12_A16_result_last : alu (vfState .resultLast 0xFF 2) 0x8F14 15 1 1 ∧ alu (vfState .resultLast 5 3) 0x8F15 15 2 2 ∧
    alu (vfState .resultLast 3 0) 0x8F06 15 1 1 ∧ alu (vfState .resultLast 0x81 0) 0x8F0E 15 2 2 ∧
    alu (vfState .resultLast 5 3) 0x8F17 15 0xFE 0xFE := by decide

theorem test_A18_rnd : after (stepWord (supplyRand r0 0xB6) 0xC30F) (fun t => readV t 3 == 0x06) ∧
    after (stepWord (supplyRand r0 0xB6) 0xC3F0) (fun t => readV t 3 == 0xB0) := by decide

theorem test_M1_M3 : after (stepWord r0 0xA2F0) (fun t => t.i == 0x2F0) ∧
    after (stepWord (withV [(1, 2), (15, 9)] { r0 with i := 0x0FFF }) 0xF11E) (fun t => t.i == 0x1001 && readV t 15 == 9) ∧
    after (stepWord (withV [(1, 1)] { r0 with i := 0xFFFF }) 0xF11E) (fun t => t.i == 0) := by decide
theorem test_M4_glyph_address : after (stepWord (withV [(1, 0x0A)] r0) 0xF129) (fun t => t.i == 0x82) ∧
    after (stepWord (withV [(1, 0xFF)] r0) 0xF129) (fun t => t.i == 0x54B) := by decide
theorem test_S4_M5_bcd : after (stepWord (withV [(1, 234)] { r0 with i := 0x300 }) 0xF133)
      (fun t => readBytes t.mem 0x300 3 == [2, 3, 4] && t.i == 0x300) ∧
    after (stepWord (withV [(1, 99)] { r0 with i := 0x300 }) 0xF133) (fun t => readBytes t.mem 0x300 3 == [0, 9, 9]) := by decide
theorem test_M6_bcd_range : failsWith (stepWord { r0 with i := 0x2000 } 0xF033) (.outOfBounds 0x2000) := by decide
theorem test_M7_M8_store : after (stepWord (withV [(0, 0x11), (1, 0x22)] { r0 with i := 0xFFE }) 0xF155)
      (fun t => memRead t.mem 0xFFE == 0x11 && memRead t.mem 0xFFF == 0x22) ∧
    failsWith (stepWord { r0 with i := 0xFFE } 0xF255) (.outOfBounds 0x1000) := by decide
theorem test_M10_M11_load : after (stepWord (withV [(2, 0x77)] (withBytes 0x300 [1, 2] { r0 with i := 0x300 })) 0xF165)
      (fun t => readV t 0 == 1 && readV t 1 == 2 && readV t 2 == 0x77 && t.i == 0x300) ∧
    after (stepWord (withBytes 0x30F [0xAB] { r0 with i := 0x300 }) 0xFF65) (fun t => readV t 15 == 0xAB) := by decide
theorem test_M12_font_is_writable : after (stepWord (withV [(0, 0xFF)] { r0 with i := 0x050 }) 0xF055)
    (fun t => memRead t.mem 0x050 == 0xFF) := by decide

theorem test_K1_K2 : after (stepWord (setKey (withV [(5, 0x0A)] r0) 10 true) 0xE59E) (fun t => t.pc == 0x204) ∧
    after (stepWord (withV [(5, 0x0A)] r0) 0xE5A1) (fun t => t.pc == 0x204) := by decide
theorem test_K3_K4 : after (stepWord (setKey (withV [(5, 0x1A)] r0) 10 true) 0xE59E) (fun t => t.pc == 0x202) ∧
    after (stepWord (setKey (withV [(5, 0x1A)] r0) 10 true) 0xE5A1) (fun t => t.pc == 0x204) := by decide
theorem test_K5_key_wait : after (stepWord (setKey r0 3 true) 0xF20A)
    (fun t => t.drv == .waitingForKey 2 && t.pc == 0x202 && readV t 2 == 0) := by decide

theorem test_L1_reset : hostReset { r0 with pc := 5, dt := 9, mem := [(0x200, 1)] } = r0 := by decide
theorem test_L1_font : readBytes r0.mem 0x050 5 = [0xF0, 0x90, 0x90, 0x90, 0xF0] := by decide
theorem test_L5_reset_ends_a_wait :
    (hostReset (setKey { r0 with drv := .waitingForKey 4 } 1 true)) = r0 := by decide

/-! ### Witnesses: each meets all the hypotheses of the statement it is named after, at a boundary where there is one -/

/-- A state about to run the word `w` at PC. -/
abbrev about (s : State) (w : Nat) : State := s.withFetchWord 16 w

/-- The next state of a step that answers. -/
def nextOf (r : Result) (d : State) : State :=
  match r with
  | .next t => t
  | .fault _ => d
  | .refused _ => d

theorem witness_DecodeInvertsEncode : (Instr.drw 15 15 15).wf = true := by decide

theorem witness_DecoderIsTheOpcodeMap : (⟨18, 0xF00F, 0x800E⟩ : OpcodeRow) ∈ opcodeMap ∧ (0x8F7E : Word) &&& 0xF00F = 0x800E := by
  decide

theorem witness_StepRunsDecodedInstruction :
    (Runs (about { r0 with pc := 0xFFE } 0x6A42) (.ldByte 10 0x42) ∧
      ∃ t, exec (.ldByte 10 0x42) (advancePC (beginStep (about { r0 with pc := 0xFFE } 0x6A42))) = .next t) ∧
    (Runs (about r0 0x00EE) .ret ∧ exec .ret (advancePC (beginStep (about r0 0x00EE))) = .fault .stackUnderflow) :=
  ⟨⟨⟨by decide, by decide, by decide⟩, _, rfl⟩, ⟨by decide, by decide, by decide⟩, rfl⟩

theorem witness_FetchReadsBigEndianWord :
    (about { r0 with pc := 0xFFE } 0x6A42).drv = .running ∧ (about { r0 with pc := 0xFFE } 0x6A42).pc.toNat = 0xFFE ∧
    wordAt (about { r0 with pc := 0xFFE } 0x6A42).mem 0xFFE = 0x6A42 ∧
    wordAt (about { r0 with pc := 0xFFE } 0x8008).mem 0xFFE = 0x8008 ∧ decode 0x8008 = .unknownOpcode 0x8008 := by decide

theorem witness_ErrorsLeaveNoTraceAndRepeat : step (about r0 0x00EE) = .fault .stackUnderflow := rfl

theorem witness_TimersTickEveryAnsweringStep :
    (Runs (about (withV [(0, 5)] r0) 0xF015) (.ldDTVx 0) ∧ ∃ t, step (about (withV [(0, 5)] r0) 0xF015) = .next t) ∧
    (Runs (about (withV [(0, 5)] r0) 0xF018) (.ldSTVx 0) ∧ ∃ t, step (about (withV [(0, 5)] r0) 0xF018) = .next t) ∧
    ((∀ x, ¬Runs (about r0 0x00E0) (.ldDTVx x)) ∧ (∀ x, ¬Runs (about r0 0x00E0) (.ldSTVx x)) ∧
      ∃ t, step (about r0 0x00E0) = .next t) :=
  ⟨⟨⟨by decide, by decide, by decide⟩, _, rfl⟩, ⟨⟨by decide, by decide, by decide⟩, _, rfl⟩,
    fun x h => absurd h.2.2 (by clear h; revert x; decide), fun x h => absurd h.2.2 (by clear h; revert x; decide), _, rfl⟩

/-- LD DT,V0 at 0x200, then LD V1,DT at 0x202, with V0 = 1. -/
def delayStart : State := withBytes 0x200 [0xF0, 0x15, 0xF1, 0x07] (withV [(0, 1)] r0)

/-- Its first three states. -/
def delayRun : Nat → State
  | 0 => delayStart
  | 1 => nextOf (step delayStart) r0
  | _ => nextOf (step (nextOf (step delayStart) r0)) r0

theorem witness_DelayTimerCountsStepsDown :
    Runs (delayRun 0) (.ldDTVx 0) ∧
    (∀ k, k ≤ 1 → ∃ t, step (delayRun k) = .next t ∧
      delayRun (k + 1) = { t with key := (delayRun (k + 1)).key, rand := (delayRun (k + 1)).rand }) ∧
    (∀ k, 1 ≤ k → k ≤ 1 → ∀ z, ¬Runs (delayRun k) (.ldDTVx z)) ∧ Runs (delayRun 1) (.ldVxDT 1) := by
  refine ⟨⟨by decide, by decide, by decide⟩, fun k hk => ?_, fun k h1 h2 z h => ?_, ⟨by decide, by decide, by decide⟩⟩
  · match k, hk with
    | 0, _ => exact ⟨_, rfl, rfl⟩
    | 1, _ => exact ⟨_, rfl, rfl⟩
  · obtain rfl : k = 1 := by omega
    exact absurd h.2.2 (by clear h; revert z; decide)

theorem witness_PcAfterEveryStep :
    (∃ t, step { r0 with drv := .waitingForKey 3 } = .next t) ∧
    (Runs (about r0 0x6A42) (.ldByte 10 0x42) ∧ (Instr.ldByte 10 0x42).jumps = false ∧ (Instr.ldByte 10 0x42).skips = false ∧
      ∃ t, step (about r0 0x6A42) = .next t) ∧
    (Runs (about r0 0x3A00) (.seByte 10 0) ∧ (Instr.seByte 10 0).skips = true ∧ ∃ t, step (about r0 0x3A00) = .next t) :=
  ⟨⟨_, rfl⟩, ⟨⟨by decide, by decide, by decide⟩, rfl, rfl, _, rfl⟩, ⟨by decide, by decide, by decide⟩, rfl, _, rfl⟩

/-- The jumps, the call and the return, at the ends of their targets and of the stack. -/
theorem witness_PcAfterEveryStep_jumps :
    (Runs (about r0 0x1FFF) (.jp 0xFFF) ∧ ∃ t, step (about r0 0x1FFF) = .next t) ∧
    (Runs (about { r0 with sp := 15 } 0x2000) (.call 0) ∧ ∃ t, step (about { r0 with sp := 15 } 0x2000) = .next t) ∧
    (Runs (about (withV [(0, 0xFF)] r0) 0xBFFF) (.jpV0 0xFFF) ∧ ∃ t, step (about (withV [(0, 0xFF)] r0) 0xBFFF) = .next t) ∧
    (Runs (about { r0 with sp := 16 } 0x00EE) .ret ∧ ∃ t, step (about { r0 with sp := 16 } 0x00EE) = .next t) :=
  ⟨⟨⟨by decide, by decide, by decide⟩, _, rfl⟩, ⟨⟨by decide, by decide, by decide⟩, _, rfl⟩,
    ⟨⟨by decide, by decide, by decide⟩, _, rfl⟩, ⟨by decide, by decide, by decide⟩, _, rfl⟩

theorem witness_LdVxKEntersTheWait : Runs (about r0 0xFF0A) (.ldVxK 15) := ⟨by decide, by decide, by decide⟩

theorem witness_WaitEndsWithLowestPressedKey :
    ∃ s : State, s.drv = .waitingForKey 15 ∧ s.key.get 15 = true ∧ ∀ j : RegIdx, j < 15 → s.key.get j = false :=
  ⟨setKey { r0 with drv := .waitingForKey 15 } 15 true, rfl, by decide, by decide⟩

theorem witness_WaitWithoutKeyOnlyTicks : ∃ s : State, s.drv = .waitingForKey 0 ∧ ∀ k : RegIdx, s.key.get k = false :=
  ⟨{ r0 with drv := .waitingForKey 0 }, rfl, by decide⟩

theorem witness_KeyReadTakesTwoSteps :
    Runs (setKey (about r0 0xF20A) 3 true) (.ldVxK 2) ∧ (setKey (about r0 0xF20A) 3 true).key.get 3 = true ∧
    ∀ j : RegIdx, j < 3 → (setKey (about r0 0xF20A) 3 true).key.get j = false :=
  ⟨⟨by decide, by decide, by decide⟩, by decide, by decide⟩

/-- A one-row sprite 0xFF at 0xFFF, the last address. -/
def spriteState (mode : DrawMode) : State :=
  withBytes 0xFFF [0xFF] { r0 with i := 0xFFF, cfg := { Config.default with drawMode := mode } }

theorem witness_DrwDrawsPixelByPixel :
    ((spriteState .xor).i.toNat + 1 - 1 ≤ 0xFFF ∧ SpriteBit (spriteState .xor) 0 1 1 7 0 ∧ (spriteState .xor).cfg.drawMode = .xor) ∧
    (SpriteBit (spriteState .forceOn) 0 1 1 0 0 ∧ (spriteState .forceOn).cfg.drawMode = .forceOn) ∧
    ¬SpriteBit (spriteState .forceOn) 0 1 1 8 0 ∧
    (SpriteBit { spriteState .forceOn with fb := fbSet Framebuffer.allOff 0 0 true } 0 1 1 0 0 ∧
      fbGet { spriteState .forceOn with fb := fbSet Framebuffer.allOff 0 0 true }.fb 0 0 = true) ∧
    0xFFF < (spriteState .forceOn).i.toNat + 2 - 1 := by
  refine ⟨⟨by decide, ⟨by decide, by decide, 0, 7, by decide, by decide, by decide, by decide, by decide⟩, rfl⟩,
    ⟨⟨by decide, by decide, 0, 0, by decide, by decide, by decide, by decide, by decide⟩, rfl⟩, ?_,
    ⟨⟨by decide, by decide, 0, 0, by decide, by decide, by decide, by decide, by decide⟩, by decide⟩, by decide⟩
  rintro ⟨-, -, r, c, -, hc, he, -⟩
  have : (readV (spriteState .forceOn) 0).toNat = 0 := by decide
  simp only [readV] at this
  omega

theorem witness_DrawingTwice : (0 : RegIdx) ≠ 15 ∧ (1 : RegIdx) ≠ 15 ∧
    (spriteState .xor).i.toNat + 1 - 1 ≤ 0xFFF ∧ (spriteState .xor).cfg.drawMode = .xor ∧
    (spriteState .forceOn).i.toNat + 1 - 1 ≤ 0xFFF ∧ (spriteState .forceOn).cfg.drawMode = .forceOn := by decide

theorem witness_OnlyClsTurnsPixelsOff :
    ∃ s t : State, s.cfg.drawMode = .forceOn ∧ step s = .next t ∧ fbGet s.fb 63 31 = true ∧ fbGet t.fb 63 31 = false :=
  ⟨about { r0 with fb := fbSet Framebuffer.allOff 63 31 true } 0x00E0, _, rfl, rfl, by decide, by decide⟩

theorem witness_OnlyClsAndDrwWriteTheFramebuffer :
    (∃ t, step (about { r0 with i := 0x050 } 0xD015) = .next t ∧ t.fbChanged = true) ∧
    (∃ t, step (about r0 0x6A42) = .next t ∧ t.fbChanged = false) ∧ ∃ t, step (supplyRand (about r0 0x6A42) 7) = .next t :=
  ⟨⟨_, rfl, rfl⟩, ⟨_, rfl, rfl⟩, _, rfl⟩

theorem witness_RetPopsTheReturnAddress :
    ({ r0 with sp := 1 } : State).sp.val = (0 : Fin 16).val + 1 ∧ ({ r0 with sp := 16 } : State).sp.val = (15 : Fin 16).val + 1 ∧
    r0.sp.val = 0 := by decide

theorem witness_JpSetsPc : (Runs (about r0 0x1200) (.jp 0x200) ∧ (0x200 : Addr12).toNat = (about r0 0x1200).pc.toNat) ∧
    Runs (about r0 0x1FFF) (.jp 0xFFF) :=
  ⟨⟨⟨by decide, by decide, by decide⟩, by decide⟩, ⟨by decide, by decide, by decide⟩⟩

theorem witness_JpV0AddsV0 : Runs (about r0 0xBFFF) (.jpV0 0xFFF) ∧
    0xFFF ≤ (0xFFF : Addr12).toNat + ((about r0 0xBFFF).v.get 0).toNat :=
  ⟨⟨by decide, by decide, by decide⟩, by decide⟩

theorem witness_CallPushesTheReturnAddress :
    r0.sp.val = (0 : Fin 16).val ∧ ({ r0 with sp := 15 } : State).sp.val = (15 : Fin 16).val ∧
    ({ r0 with sp := 16 } : State).sp.val = 16 := by decide

theorem witness_RetUndoesCall : ∃ t : State, ({ r0 with sp := 15 } : State).sp.val < 16 ∧
    exec (.call 0x300) { r0 with sp := 15 } = .next t ∧ t.sp = 16 := ⟨_, by decide, rfl, by decide⟩

theorem witness_SixteenCallsNest : r0.sp.val + (List.replicate 16 (0x300 : Addr12)).length = 16 := by decide

theorem witness_AddSubSubnAndShifts : (1 : RegIdx) ≠ 15 ∧ (vfState .flagLast 5 3).cfg.vfWriteOrder = .flagLast ∧
    (vfState .resultLast 5 3).cfg.vfWriteOrder = .resultLast := by decide

theorem witness_RndMasksTheRandomByte : (supplyRand r0 0xB6).rand = some 0xB6 := rfl

theorem witness_OnlyRndReadsTheRandomByte : ∀ x kk, ¬Runs (about r0 0x00E0) (.rnd x kk) := by
  intro x kk h
  have h1 : decode (wordAt (about r0 0x00E0).mem (about r0 0x00E0).pc.toNat) = .instr .cls := by decide
  have := h1.symm.trans h.2.2
  simp at this

theorem witness_BcdStoresThreeDigits :
    ({ r0 with i := 0xFFD } : State).i.toNat + 2 ≤ 0xFFF ∧ 0xFFF < ({ r0 with i := 0xFFE } : State).i.toNat + 2 := by decide

theorem witness_RegisterStoreAndLoad :
    ({ r0 with i := 0xFF0 } : State).i.toNat + (15 : RegIdx).val ≤ 0xFFF ∧
    0xFFF < ({ r0 with i := 0xFF1 } : State).i.toNat + (15 : RegIdx).val := by decide

theorem witness_StoreThenLoadRestores : ∃ t, exec (.ldMemVx 15) { r0 with i := 0xFF0 } = .next t ∧
    ({ r0 with i := 0xFF0 } : State).i.toNat + (15 : RegIdx).val ≤ 0xFFF ∧ t.i = 0xFF0 := ⟨_, rfl, by decide, rfl⟩

/-- V0, V1 spell LD VA,0x42, stored at 0xFFE, the last address a word fits. -/
theorem witness_StoredCodeIsFetched :
    ∃ t u : State, 1 ≤ (1 : RegIdx).val ∧ (withV [(0, 0x6A), (1, 0x42)] { r0 with i := 0xFFE }).i.toNat + (1 : RegIdx).val ≤ 0xFFF ∧
      exec (.ldMemVx 1) (withV [(0, 0x6A), (1, 0x42)] { r0 with i := 0xFFE }) = .next t ∧ u.mem = t.mem ∧ u.drv = .running ∧
      u.pc = 0xFFE ∧ decode (wordOfBytes 0x6A 0x42) = .instr (.ldByte 10 0x42) :=
  ⟨_, setPC (setMem r0 _) 0xFFE, by decide, by decide, rfl, rfl, rfl, rfl, by decide⟩

theorem witness_KeySkips : ((withV [(5, 15)] r0).v.get 5).toNat = (15 : RegIdx).val ∧ 16 ≤ ((withV [(5, 16)] r0).v.get 5).toNat := by
  decide

theorem witness_TimerMoves : Runs (about r0 0xFF07) (.ldVxDT 15) ∧ Runs (about r0 0xF015) (.ldDTVx 0) ∧
    Runs (about r0 0xF018) (.ldSTVx 0) :=
  ⟨⟨by decide, by decide, by decide⟩, ⟨by decide, by decide, by decide⟩, ⟨by decide, by decide, by decide⟩⟩

theorem witness_GeneralRegisterWriters :
    (∃ t, step (about r0 0x6A42) = .next t ∧ t.v.get 10 ≠ (about r0 0x6A42).v.get 10) ∧
    (∃ t, step (setKey { r0 with drv := .waitingForKey 2 } 9 true) = .next t ∧ t.v.get 2 ≠ r0.v.get 2) :=
  ⟨⟨_, rfl, by decide⟩, _, rfl, by decide⟩

theorem witness_MemoryWriters :
    (∃ t, step (about (withV [(0, 234)] { r0 with i := 0xFFD }) 0xF033) = .next t ∧
      memRead t.mem 0xFFF ≠ memRead (about (withV [(0, 234)] { r0 with i := 0xFFD }) 0xF033).mem 0xFFF) ∧
    (∃ t, step (about (withV [(0, 9)] { r0 with i := 0xFFF }) 0xF055) = .next t ∧
      memRead t.mem 0xFFF ≠ memRead (about (withV [(0, 9)] { r0 with i := 0xFFF }) 0xF055).mem 0xFFF) :=
  ⟨⟨_, rfl, by decide⟩, _, rfl, by decide⟩

theorem witness_SingleRegisterWriters :
    (∃ t, step (about r0 0xA2F0) = .next t ∧ t.i ≠ (about r0 0xA2F0).i) ∧
    (∃ t, step (about r0 0x2300) = .next t ∧ t.sp ≠ (about r0 0x2300).sp ∧ t.stack ≠ (about r0 0x2300).stack) ∧
    (∃ t, step (about { r0 with sp := 1 } 0x00EE) = .next t ∧ t.sp ≠ (about { r0 with sp := 1 } 0x00EE).sp) ∧
    (∃ t, step (about r0 0xF20A) = .next t ∧ t.drv ≠ (about r0 0xF20A).drv) ∧
    (∃ t, step (setKey { r0 with drv := .waitingForKey 2 } 9 true) = .next t ∧ t.drv ≠ .waitingForKey 2) :=
  ⟨⟨_, rfl, by decide⟩, ⟨_, rfl, by decide, by decide⟩, ⟨_, rfl, by decide⟩, ⟨_, rfl, by decide⟩, _, rfl, by decide⟩

theorem witness_OnlyTheHostWritesKeys : (∃ t, step (about r0 0xE59E) = .next t) ∧ Transaction.step 0 ≠ .reset ∧
    ∀ k p, Transaction.step 0 ≠ .setKey k p := ⟨⟨_, rfl⟩, by decide, fun _ _ => by simp⟩

theorem witness_OnlyKeyInstructionsReadKeys : (about r0 0xF20A).drv = .running ∧ (∀ x, ¬Runs (about r0 0xF20A) (.skp x)) ∧
    ∀ x, ¬Runs (about r0 0xF20A) (.sknp x) :=
  ⟨by decide, fun x h => absurd h.2.2 (by clear h; revert x; decide), fun x h => absurd h.2.2 (by clear h; revert x; decide)⟩

theorem witness_StepKeepsTheInvariant :
    (about { r0 with pc := 0xFFE, sp := 16, stack := Vector.replicate 16 0x1000 } 0x00EE).Inv ∧
    ∃ t, step (about { r0 with pc := 0xFFE, sp := 16, stack := Vector.replicate 16 0x1000 } 0x00EE) = .next t :=
  ⟨⟨by decide, by decide, by decide⟩, _, rfl⟩

theorem witness_TransactionsKeepTheInvariant :
    (about { r0 with pc := 0x10FE, sp := 16, stack := Vector.replicate 16 0x1000, drv := .waitingForKey 3 } 0x6A42).Inv :=
  ⟨by decide, by decide, by decide⟩

theorem witness_SoundTimerIsReadByTheHostOnly :
    (∃ t, step (about r0 0xF018) = .next t) ∧ step (about r0 0x00EE) = .fault .stackUnderflow ∧
    ∃ t, step (supplyRand (about { r0 with st := 9 } 0xC3FF) 7) = .next t := ⟨⟨_, rfl⟩, rfl, _, rfl⟩

theorem witness_ReachableStatesMeetTheInvariant : Reachable (transact (.setKey 3 true) (newBlock Config.default)).1 :=
  .next _ (.new _)

theorem witness_LoadCopiesTheRom : (List.replicate 3584 (0 : Byte)).length ≤ 3584 ∧ 3584 < (List.replicate 3585 (0 : Byte)).length := by
  rw [List.length_replicate, List.length_replicate]
  omega

theorem witness_BootRunsTheRomsFirstWord : (List.replicate 3582 (0 : Byte)).length ≤ 3582 ∧
    decode (wordOfBytes 0x6A 0x42) = .instr (.ldByte 10 0x42) := ⟨List.length_replicate.le, by decide⟩

end Sys2Proof.Tests
end

/-!
PROOFS. What one instruction can do to the state, said once; the invariant, and the statements on the state
(spec/10_state.md).
-/

namespace Sys2Proof

/-- The instructions whose only effect is on general registers. -/
def Instr.writesOnlyV : Instr → Bool
  | .ldByte _ _ | .addByte _ _ | .ldReg _ _ | .orReg _ _ | .andReg _ _ | .xorReg _ _ | .addReg _ _ | .subReg _ _
  | .shr _ | .subnReg _ _ | .shl _ | .rnd _ _ | .ldVxDT _ | .ldVxMem _ => true
  | .cls | .ret | .jp _ | .call _ | .seByte _ _ | .sneByte _ _ | .seReg _ _ | .sneReg _ _ | .ldI _ | .jpV0 _
  | .drw _ _ _ | .skp _ | .sknp _ | .ldVxK _ | .ldDTVx _ | .ldSTVx _ | .addI _ | .ldF _ | .ldB _ | .ldMemVx _ => false

end Sys2Proof

namespace Sys2Proof.Machine

/-! ### What an instruction does -/

/-- `Effect s i u`: `u` is what the instruction `i` may make of the state `s`, PC already past it. One constructor a kind
of effect. `skip` leaves open whether PC moves on, `regs` what the registers the instruction lists hold; every other one
gives the whole next state. -/
inductive Effect (s : State) : Instr → State → Prop where
  | cls : Effect s .cls (setFb s Framebuffer.allOff)
  | drw (x y : RegIdx) (n : Nat) (hr : inRange (indexAddr s 0) n = true) :
      Effect s (.drw x y n)
        (writeV (setFb s (drawSprite s x y n).1) regF (flagByte (drawSprite s x y n).2))
  | jp (nnn : Addr12) : Effect s (.jp nnn) (setPC s (addrOperand nnn))
  | jpV0 (nnn : Addr12) : Effect s (.jpV0 nnn) (setPC s (offsetTarget s nnn))
  | call (nnn : Addr12) (k : Fin 16) (hk : s.sp.val = k.val) :
      Effect s (.call nnn)
        { s with stack := s.stack.set k.val s.pc k.isLt, sp := k.succ, pc := addrOperand nnn }
  | ret (k : Fin 16) (hk : s.sp.val = k.val + 1) :
      Effect s .ret { s with sp := k.castSucc, pc := s.stack.get k }
  | skip {i : Instr} (hi : i.skips = true) (c : Bool) : Effect s i (setPC s (if c then s.pc + 2 else s.pc))
  | regs {i : Instr} (hi : i.writesOnlyV = true) (v : Vector Byte 16)
      (hv : ∀ r, i.writesV r = false → v.get r = s.v.get r) : Effect s i { s with v := v }
  | ldI (nnn : Addr12) : Effect s (.ldI nnn) (setI s (addrOperand nnn))
  | addI (x : RegIdx) : Effect s (.addI x) (setI s (s.i + (readV s x).setWidth 16))
  | ldF (x : RegIdx) : Effect s (.ldF x) (setI s (glyphAddr (readV s x)))
  | ldB (x : RegIdx) (hr : inRange (indexAddr s 0) 3 = true) :
      Effect s (.ldB x) (setMem s (writeBytes s.mem (indexAddr s 0) (bcdDigits (readV s x))))
  | ldMemVx (x : RegIdx) (hr : inRange (indexAddr s 0) (x.val + 1) = true) :
      Effect s (.ldMemVx x) (setMem s (writeBytes s.mem (indexAddr s 0) (readVs s x)))
  | ldVxK (x : RegIdx) : Effect s (.ldVxK x) (setDrv s (.waitingForKey x))
  | ldDTVx (x : RegIdx) : Effect s (.ldDTVx x) (setDT s (readV s x))
  | ldSTVx (x : RegIdx) : Effect s (.ldSTVx x) (setST s (readV s x))

/-- A write of one register by an instruction that lists it. -/
theorem Effect.of_writeV {s : State} {i : Instr} (x : RegIdx) (b : Byte) (hi : i.writesOnlyV = true)
    (hx : i.writesV x = true) : Effect s i (writeV s x b) := by
  refine .regs hi _ fun r hr => ?_
  have hne : r ≠ x := fun e => by simp [e, hx] at hr
  simp [hne]

/-- A flagged write by an instruction that lists its destination and VF. -/
theorem Effect.of_writeFlagged {s : State} {i : Instr} (x : RegIdx) (b : Byte) (f : Bool) (hi : i.writesOnlyV = true)
    (hx : i.writesV x = true) (hF : i.writesV regF = true) : Effect s i (writeFlagged s x b f) := by
  rw [writeFlagged_eq]
  refine .regs hi _ fun r hr => ?_
  have hne : r ≠ x := fun e => by simp [e, hx] at hr
  have hneF : r ≠ regF := fun e => by simp [e, hF] at hr
  have h := readV_writeFlagged s x r b f
  rwa [if_neg hneF, if_neg hne] at h

/-- A load of V0..Vx leaves the registers above x. -/
theorem Effect.of_writeVs {s : State} (x : RegIdx) (bs : List Byte) (hlen : bs.length = x.val + 1) :
    Effect s (.ldVxMem x) (writeVs s bs) := by
  refine .regs rfl _ fun r hr => ?_
  have hlt : x.val < r.val := by simpa [Instr.writesV] using hr
  rw [Vector.get_eq_getElem, Vector.get_eq_getElem, writeRegsFrom_getElem, dif_neg (by omega)]

/-- A skip leaves PC, or moves it on by 2 (R108). -/
theorem Effect.of_skipIf {s : State} {i : Instr} (c : Bool) (hi : i.skips = true) : Effect s i (skipIf c s) := by
  have h : skipIf c s = setPC s (if c then s.pc + 2 else s.pc) := by cases c <;> rfl
  exact h ▸ .skip hi c

/-- Everything an instruction that answers can have done. -/
theorem exec_effect {i : Instr} {s t : State} (h : exec i s = .next t) : Effect s i t := by
  cases i
  case cls => cases h; exact .cls
  case drw x y n => obtain ⟨hr, rfl⟩ := guardRange_next.1 h; exact .drw x y n hr
  case jp nnn => cases h; exact .jp nnn
  case jpV0 nnn => cases h; exact .jpV0 nnn
  case call nnn =>
    simp only [exec, execCall] at h
    split at h
    · simp [raise] at h
    · next u hp =>
      obtain ⟨hs, rfl⟩ := pushStack_some hp
      cases h
      exact .call nnn ⟨s.sp.val, hs⟩ rfl
  case ret =>
    simp only [exec, execRet] at h
    split at h
    · simp [raise] at h
    · next a u hp =>
      obtain ⟨hs, rfl, rfl⟩ := popStack_some hp
      cases h
      exact .ret ⟨s.sp.val - 1, by omega⟩ (Nat.succ_pred_eq_of_pos hs).symm
  case seByte | sneByte | seReg | sneReg | skp | sknp => cases h; exact .of_skipIf _ rfl
  case ldByte x _ | addByte x _ | ldReg x _ | orReg x _ | andReg x _ | xorReg x _ | rnd x _ | ldVxDT x =>
    cases h; exact .of_writeV x _ rfl (by simp [Instr.writesV])
  case addReg x _ | subReg x _ | subnReg x _ | shr x | shl x =>
    cases h; exact .of_writeFlagged x _ _ rfl (by simp [Instr.writesV]) (by simp [Instr.writesV])
  case ldVxMem x => obtain ⟨-, rfl⟩ := guardRange_next.1 h; exact .of_writeVs x _ (readBytes_length _ _ _)
  case ldI nnn => cases h; exact .ldI nnn
  case addI x => cases h; exact .addI x
  case ldF x => cases h; exact .ldF x
  case ldB x => obtain ⟨hr, rfl⟩ := guardRange_next.1 h; exact .ldB x hr
  case ldMemVx x => obtain ⟨hr, rfl⟩ := guardRange_next.1 h; exact .ldMemVx x hr
  case ldVxK x => cases h; exact .ldVxK x
  case ldDTVx x => cases h; exact .ldDTVx x
  case ldSTVx x => cases h; exact .ldSTVx x

/-! ### What a step does -/

/-- The state an instruction runs in: `fb_changed` cleared and PC advanced (R85, R90). -/
abbrev atExec (s : State) : State := advancePC (beginStep s)

/-- The end of a wait writes one register and sets the driver running; without a key nothing changes (R87, R88). -/
theorem resolveWait_cases (x : RegIdx) (s : State) :
    (∃ k, lowestKey s = some k ∧ resolveWait x s = setDrv (writeV s x (keyByte k)) .running) ∨
    (lowestKey s = none ∧ resolveWait x s = s) := by
  unfold resolveWait
  cases h : lowestKey s with
  | some k => exact .inl ⟨k, rfl, rfl⟩
  | none => exact .inr ⟨rfl, rfl⟩

/-- A step that answers ended a wait, waited on, or ran one instruction to its effect; the tick follows. -/
theorem step_effect {s t : State} (h : step s = .next t) :
    (∃ x k, s.drv = .waitingForKey x ∧ s.key.get k = true ∧
      t = closeStep (setDrv (writeV (beginStep s) x (keyByte k)) .running)) ∨
    (∃ x, s.drv = .waitingForKey x ∧ t = closeStep (beginStep s)) ∨
    (∃ i u, Runs s i ∧ Effect (atExec s) i u ∧ t = closeStep u) := by
  rcases step_next_cases h with ⟨x, hd, rfl⟩ | ⟨i, u, hi, hu, rfl⟩
  · rcases resolveWait_cases x (beginStep s) with ⟨k, hk, he⟩ | ⟨-, he⟩
    · exact .inl ⟨x, k, hd, (lowestKey_some hk).1, by rw [he]⟩
    · exact .inr (.inl ⟨x, hd, by rw [he]⟩)
  · exact .inr (.inr ⟨i, u, hi, exec_effect hu, rfl⟩)

/-- A running step hands its instruction's answer to the end of the step (R85, R92, R93). -/
theorem step_of_runs {s : State} {i : Instr} (hi : Runs s i) : step s = finishStep (exec i (atExec s)) := by
  obtain ⟨hd, hpc, hdec⟩ := hi
  have hr : inRange s.pc.toNat 2 = true := (inRange_iff _ _).2 (by omega)
  simp only [step, cycle, hd, runningStep, hr, runWord, hdec, if_true]

/-- A waiting step ends the wait if it can, then ticks (R87, R88). -/
theorem step_of_waiting {s : State} {x : RegIdx} (hd : s.drv = .waitingForKey x) :
    step s = finishStep (.next (resolveWait x (beginStep s))) := by
  simp only [step, cycle, hd, finishStep]

/-- A running step that has no instruction to run fails by the fetch or the decoder, which read PC and memory only
(R56, R153). -/
theorem step_of_not_runs {s : State} (hd : s.drv = .running) (h : ∀ i, ¬Runs s i) :
    ∃ f, ∀ t : State, t.drv = s.drv → t.pc = s.pc → t.mem = s.mem → step t = .fault f := by
  by_cases hr : inRange s.pc.toNat 2 = true
  · have hpc : s.pc.toNat ≤ 0xFFE := by rw [inRange_iff] at hr; omega
    cases hw : decode (wordAt s.mem s.pc.toNat) with
    | instr i => exact absurd ⟨hd, hpc, hw⟩ (h i)
    | unknownOpcode u =>
      refine ⟨.unknownOpcode u, fun t htd htp htm => ?_⟩
      simp only [step, cycle, htd, hd, runningStep, htp, hr, runWord, htm, hw, if_true, raise]
  · refine ⟨rangeFault s.pc.toNat, fun t htd htp _ => ?_⟩
    simp only [step, cycle, htd, hd, runningStep, htp, if_neg hr, raise]

/-- No wrap: a fetched instruction lies at or below 0xFFE. -/
theorem Runs.pc_add_two {s : State} {i : Instr} (h : Runs s i) : (s.pc + 2).toNat = s.pc.toNat + 2 := by
  have := h.2.1
  bv_omega

theorem addrOperand_toNat (nnn : Addr12) : (addrOperand nnn).toNat = nnn.toNat := by
  have := nnn.isLt
  rw [addrOperand, BitVec.toNat_setWidth]
  omega

/-- JP V0 does not wrap (R119). -/
theorem offsetTarget_toNat (s : State) (nnn : Addr12) :
    (offsetTarget s nnn).toNat = nnn.toNat + (s.v.get 0).toNat := by
  have := nnn.isLt
  have := (s.v.get 0).isLt
  simp only [offsetTarget, readV_eq, BitVec.toNat_add, BitVec.toNat_setWidth]
  omega

/-! ### The invariant -/

/-- The invariant speaks of memory, PC and the stack only. -/
theorem State.Inv.congr {s t : State} (h : s.Inv) (hm : t.mem = s.mem) (hp : t.pc = s.pc) (hs : t.stack = s.stack) :
    t.Inv := ⟨hm ▸ h.mem_wf, hp ▸ h.pc_le, hs ▸ h.stack_le⟩

/-- A new PC at most 0x10FE keeps the invariant. -/
theorem State.Inv.setPC {s : State} (h : s.Inv) {a : Word} (ha : a.toNat ≤ 0x10FE) : (setPC s a).Inv :=
  ⟨h.mem_wf, ha, h.stack_le⟩

/-- A write of bytes inside the address space keeps the invariant. -/
theorem State.Inv.setMem {s : State} (h : s.Inv) {a : Nat} (bs : List Byte) (ha : a + bs.length ≤ memSize) :
    (setMem s (writeBytes s.mem a bs)).Inv :=
  ⟨writeBytes_wf bs h.mem_wf ha, h.pc_le, h.stack_le⟩

/-- Every instruction fetched at or below 0xFFE keeps the invariant: it runs with PC at most 0x1000, so that a skip stays
below 0x10FE and CALL pushes at most 0x1000 (R26). -/
theorem Effect.keeps_inv {s u : State} {i : Instr} (h : Effect s i u) (hs : s.Inv) (hpc : s.pc.toNat ≤ 0x1000) :
    u.Inv := by
  cases h with
  | jp nnn => exact hs.setPC (by have := nnn.isLt; rw [addrOperand_toNat]; omega)
  | jpV0 nnn =>
    have := nnn.isLt
    have := (s.v.get 0).isLt
    exact hs.setPC (by rw [offsetTarget_toNat]; omega)
  | call nnn k hk =>
    refine ⟨hs.mem_wf, ?_, fun j => ?_⟩
    · have := nnn.isLt
      show (addrOperand nnn).toNat ≤ 0x10FE
      rw [addrOperand_toNat]; omega
    · simp only [get_set]
      split
      · exact hpc
      · exact hs.stack_le j
  | ret k hk => exact ⟨hs.mem_wf, (hs.stack_le k).trans (by decide), hs.stack_le⟩
  | skip hi c =>
    refine hs.setPC ?_
    split
    · bv_omega
    · exact hs.pc_le
  | ldB x hr =>
    rw [inRange_iff] at hr
    exact hs.setMem _ (by simp only [bcdDigits, List.length_cons, List.length_nil, memSize]; omega)
  | ldMemVx x hr =>
    rw [inRange_iff] at hr
    exact hs.setMem _ (by rw [readVs_length, memSize]; omega)
  | cls | drw | regs | ldI | addI | ldF | ldVxK | ldDTVx | ldSTVx => exact hs.congr rfl rfl rfl

/-- A waiting step moves none of the three, and an instruction runs with PC at most 0x1000. -/
theorem step_keeps_inv {s t : State} (hs : s.Inv) (h : step s = .next t) : t.Inv := by
  rcases step_effect h with ⟨x, k, -, -, rfl⟩ | ⟨x, -, rfl⟩ | ⟨i, u, hi, he, rfl⟩
  · exact hs.congr rfl rfl rfl
  · exact hs.congr rfl rfl rfl
  · have hpc : (atExec s).pc.toNat ≤ 0x1000 := by
      have := hi.2.1
      have := hi.pc_add_two
      simp only [advancePC_pc, beginStep_pc]
      omega
    have hbegin : (atExec s).Inv := ⟨hs.mem_wf, hpc.trans (by decide), hs.stack_le⟩
    exact (he.keeps_inv hbegin hpc).congr rfl rfl rfl

/-- Settles O51, by the effect of the instruction the step runs. -/
theorem stepKeepsTheInvariant : Obligations.StepKeepsTheInvariant := fun _ _ => step_keeps_inv

/-- Reset meets the invariant whatever the state before and the FONT: the font ends at 0x09F. -/
theorem hostReset_inv (s : State) : (hostReset s).Inv where
  mem_wf := writeBytes_wf _ rfl (by simp [fontBase, memSize])
  pc_le := by simp
  stack_le k := by simp [Vector.get_eq_getElem]

/-- A load keeps the invariant: a ROM of at most 3584 bytes ends at 0xFFF (R175). -/
theorem load_keeps_inv {s t : State} {bytes : List Byte} (hs : s.Inv) (h : load s bytes = .ok t) : t.Inv := by
  unfold load at h
  split at h
  · simp at h
  · next hlen =>
    cases h
    exact hs.setMem _ (by simp only [progStart, memSize, romMax] at *; omega)

/-- Every transaction keeps the invariant: a load or a step that errs leaves the state before it (R93, R175). -/
theorem transact_keeps_inv (a : Transaction) {s : State} (hs : s.Inv) : (transact a s).1.Inv := by
  cases a with
  | reset => exact hostReset_inv s
  | load bytes =>
    simp only [transact]
    split
    · next t ht => exact load_keeps_inv hs ht
    · exact hs
  | step b =>
    simp only [transact]
    split
    · next t ht => exact step_keeps_inv (s := supplyRand s b) (hs.congr rfl rfl rfl) ht
    · exact hs
    · exact hs
  | setKey k p => exact hs.congr rfl rfl rfl
  | framebufferSnapshot | registerSnapshot => exact hs

/-- Settles O57: a new block is a reset one. -/
theorem transactionsKeepTheInvariant : Obligations.TransactionsKeepTheInvariant :=
  ⟨fun _ => hostReset_inv _, fun a _ => transact_keeps_inv a⟩

/-- Settles O52, by induction on how the state was reached. -/
theorem reachableStatesMeetTheInvariant : Obligations.ReachableStatesMeetTheInvariant := by
  intro s h
  induction h with
  | new c => exact hostReset_inv _
  | next a _ ih => exact transact_keeps_inv a ih

/-- Settles O50: the reset memory lists nothing, and the stack is sixteen zeros. -/
theorem resetMeetsTheInvariant : Obligations.ResetMeetsTheInvariant :=
  ⟨reset_mem_wf, by decide, by decide⟩

/-! ### Where PC goes, and who writes what -/

theorem Runs.iff_eq {s : State} {i j : Instr} (hi : Runs s i) : Runs s j ↔ i = j :=
  ⟨hi.unique, fun e => e ▸ hi⟩

/-- A step that runs `i` and answers has `i`'s effect, then the tick. -/
theorem Runs.effect {s t : State} {i : Instr} (hi : Runs s i) (h : step s = .next t) :
    ∃ u, Effect (atExec s) i u ∧ t = closeStep u := by
  rcases step_effect h with ⟨x, k, hd, -⟩ | ⟨x, hd, -⟩ | ⟨j, u, hj, hu, ht⟩
  · exact absurd hd hi.not_waiting
  · exact absurd hd hi.not_waiting
  · exact ⟨u, hi.unique hj ▸ hu, ht⟩

/-- A waiting step leaves PC (R87, R88). -/
theorem waiting_step_pc {s t : State} {x : RegIdx} (hd : s.drv = .waitingForKey x) (h : step s = .next t) :
    t.pc = s.pc := by
  rcases step_effect h with ⟨_, _, -, -, rfl⟩ | ⟨_, -, rfl⟩ | ⟨_, _, hi, -, -⟩
  · rfl
  · rfl
  · exact absurd hd hi.not_waiting

/-- An instruction that neither jumps nor skips does not touch PC. -/
theorem Effect.pc_of_straight {s u : State} {i : Instr} (h : Effect s i u) (hj : i.jumps = false)
    (hk : i.skips = false) : u.pc = s.pc := by
  cases h with
  | jp | jpV0 | call | ret => simp [Instr.jumps] at hj
  | skip hi => simp [hi] at hk
  | cls | drw | regs | ldI | addI | ldF | ldB | ldMemVx | ldVxK | ldDTVx | ldSTVx => rfl

theorem Effect.pc_of_skip {s u : State} {i : Instr} (h : Effect s i u) (hk : i.skips = true) :
    u.pc = s.pc ∨ u.pc = s.pc + 2 := by
  cases h with
  | skip hi c => cases c <;> simp
  | regs hi => cases i <;> simp [Instr.skips, Instr.writesOnlyV] at hi hk
  | _ => simp [Instr.skips] at hk

/-- Settles O13, clause by clause from the effect of the instruction that ran. -/
theorem pcAfterEveryStep : Obligations.PcAfterEveryStep := by
  intro s t h
  refine ⟨fun ⟨x, hd⟩ => waiting_step_pc hd h, fun i hi hj hk => ?_, fun i hi hk => ?_, fun nnn hi => ?_,
    fun nnn hi => ?_, fun hi => ?_⟩
  · obtain ⟨u, he, rfl⟩ := hi.effect h
    rw [closeStep_pc, he.pc_of_straight hj hk]
    exact hi.pc_add_two
  · obtain ⟨u, he, rfl⟩ := hi.effect h
    have h2 := hi.pc_add_two
    have hle := hi.2.1
    rcases he.pc_of_skip hk with hpc | hpc
    · exact .inl (by rw [closeStep_pc, hpc]; exact h2)
    · refine .inr ?_
      simp only [closeStep_pc, hpc, advancePC_pc, beginStep_pc]
      bv_omega
  · rcases hi with hi | hi
    · obtain ⟨u, he, rfl⟩ := hi.effect h
      cases he with
      | jp => exact addrOperand_toNat nnn
      | skip hk | regs hk => cases hk
    · obtain ⟨u, he, rfl⟩ := hi.effect h
      cases he with
      | call => exact addrOperand_toNat nnn
      | skip hk | regs hk => cases hk
  · obtain ⟨u, he, rfl⟩ := hi.effect h
    cases he with
    | jpV0 => exact offsetTarget_toNat _ nnn
    | skip hk | regs hk => cases hk
  · obtain ⟨u, he, rfl⟩ := hi.effect h
    cases he with
    | ret k hk => exact ⟨k, hk, rfl⟩
    | skip hk | regs hk => cases hk

/-- An instruction sets `fb_changed` exactly when it is CLS or DRW, and leaves the framebuffer otherwise (R99). -/
theorem Effect.fbChanged_iff {s u : State} {i : Instr} (h : Effect s i u) (hs : s.fbChanged = false) :
    (u.fbChanged = true ↔ i = .cls ∨ ∃ x y n, i = .drw x y n) ∧ (u.fbChanged = false → u.fb = s.fb) := by
  cases h with
  | cls => simp
  | drw => simp
  | skip hi => exact ⟨by cases i <;> simp [Instr.skips, hs] at hi ⊢, fun _ => rfl⟩
  | regs hi => exact ⟨by cases i <;> simp [Instr.writesOnlyV, hs] at hi ⊢, fun _ => rfl⟩
  | _ => simp [hs]

/-- Settles O22: a step clears `fb_changed` at its start, and only CLS and DRW set it. -/
theorem onlyClsAndDrwWriteTheFramebuffer : Obligations.OnlyClsAndDrwWriteTheFramebuffer := by
  refine ⟨fun s t h => ?_, fun s t b h => ?_⟩
  · have waiting : ∀ x, s.drv = .waitingForKey x → ¬(Runs s .cls ∨ ∃ x y n, Runs s (.drw x y n)) := by
      rintro x hd (hi | ⟨_, _, _, hi⟩) <;> exact hi.not_waiting hd
    rcases step_effect h with ⟨x, k, hd, -, rfl⟩ | ⟨x, hd, rfl⟩ | ⟨i, u, hi, he, rfl⟩
    · simp [waiting x hd]
    · simp [waiting x hd]
    · simp only [hi.iff_eq]
      exact he.fbChanged_iff rfl
  · simp only [transact, h, outcomeOf]

/-- An instruction leaves every register that R21 does not list for it. -/
theorem Effect.v_of_not_writesV {s u : State} {i : Instr} {r : RegIdx} (h : Effect s i u) (hr : i.writesV r = false) :
    u.v.get r = s.v.get r := by
  cases h with
  | drw =>
    have hne : r ≠ 15 := by simpa [Instr.writesV] using hr
    simp [hne]
  | regs _ v hv => exact hv r hr
  | cls | jp | jpV0 | call | ret | skip | ldI | addI | ldF | ldB | ldMemVx | ldVxK | ldDTVx | ldSTVx => rfl

/-- Settles O45: a register outside R21's list stays. -/
theorem generalRegisterWriters : Obligations.GeneralRegisterWriters := by
  intro s t r h hne
  rcases step_effect h with ⟨x, k, hd, -, rfl⟩ | ⟨x, -, rfl⟩ | ⟨i, u, hi, he, rfl⟩
  · have hrx : r = x := by
      by_contra hrx
      exact hne (by simp [hrx])
    exact .inl (hrx ▸ hd)
  · exact absurd rfl hne
  · refine .inr ⟨i, hi, ?_⟩
    by_contra hw
    exact hne (he.v_of_not_writesV (by simpa using hw))

/-- Who writes I, SP, the stack and the driver's state, and which way (R28, R29, R30, R86). -/
theorem Effect.single_writers {s u : State} {i : Instr} (h : Effect s i u) :
    (u.i = s.i ∨ (∃ a, i = .ldI a) ∨ ∃ x, i = .addI x ∨ i = .ldF x) ∧
    (u.sp = s.sp ∨ ((∃ a, i = .call a) ∧ u.sp.val = s.sp.val + 1) ∨ (i = .ret ∧ u.sp.val + 1 = s.sp.val)) ∧
    (u.stack = s.stack ∨ ∃ a, i = .call a) ∧
    (u.drv = s.drv ∨ ∃ x, i = .ldVxK x ∧ u.drv = .waitingForKey x) := by
  cases h with
  | ldI a => exact ⟨.inr (.inl ⟨a, rfl⟩), .inl rfl, .inl rfl, .inl rfl⟩
  | addI x => exact ⟨.inr (.inr ⟨x, .inl rfl⟩), .inl rfl, .inl rfl, .inl rfl⟩
  | ldF x => exact ⟨.inr (.inr ⟨x, .inr rfl⟩), .inl rfl, .inl rfl, .inl rfl⟩
  | call a k hk => exact ⟨.inl rfl, .inr (.inl ⟨⟨a, rfl⟩, by simp [hk]⟩), .inr ⟨a, rfl⟩, .inl rfl⟩
  | ret k hk => exact ⟨.inl rfl, .inr (.inr ⟨rfl, hk.symm⟩), .inl rfl, .inl rfl⟩
  | ldVxK x => exact ⟨.inl rfl, .inl rfl, .inl rfl, .inr ⟨x, rfl, rfl⟩⟩
  | cls | drw | jp | jpV0 | skip | regs | ldB | ldMemVx | ldDTVx | ldSTVx =>
    exact ⟨.inl rfl, .inl rfl, .inl rfl, .inl rfl⟩

/-- Settles O47: a waiting step writes the driver's state only, and a running one what its instruction writes. -/
theorem singleRegisterWriters : Obligations.SingleRegisterWriters := by
  intro s t h
  rcases step_effect h with ⟨x, k, -, hk, rfl⟩ | ⟨x, -, rfl⟩ | ⟨i, u, hi, he, rfl⟩
  · exact ⟨absurd rfl, absurd rfl, absurd rfl, fun _ => .inr ⟨rfl, k, hk⟩⟩
  · exact ⟨absurd rfl, absurd rfl, absurd rfl, absurd rfl⟩
  · obtain ⟨hI, hsp, hstack, hdrv⟩ := he.single_writers
    simp only [hi.iff_eq]
    exact ⟨hI.resolve_left, hsp.resolve_left, hstack.resolve_left, fun hne => .inl (hdrv.resolve_left hne)⟩

/-- A step leaves the keys and the parameters (R32). -/
theorem step_keeps_key_cfg {s t : State} (h : step s = .next t) : t.key = s.key ∧ t.cfg = s.cfg := by
  rcases step_next_cases h with ⟨x, -, rfl⟩ | ⟨i, u, -, hu, rfl⟩
  · rcases resolveWait_cases x (beginStep s) with ⟨k, -, he⟩ | ⟨-, he⟩ <;> rw [he] <;> exact ⟨rfl, rfl⟩
  · obtain ⟨hkey, hcfg, -, -⟩ := exec_keeps_inputs hu
    exact ⟨hkey, hcfg⟩

theorem load_keeps_key_cfg {s t : State} {bytes : List Byte} (h : load s bytes = .ok t) :
    t.key = s.key ∧ t.cfg = s.cfg := by
  unfold load at h
  split at h
  · simp at h
  · cases h; exact ⟨rfl, rfl⟩

/-- A transaction leaves the parameters, and the keys unless it is `setKey` or `reset`. -/
theorem transact_keeps_key_cfg (a : Transaction) (s : State) :
    (a ≠ .reset → (∀ k p, a ≠ .setKey k p) → (transact a s).1.key = s.key) ∧ (transact a s).1.cfg = s.cfg := by
  cases a with
  | reset => exact ⟨absurd rfl, rfl⟩
  | load bytes =>
    simp only [transact]
    split
    · next t ht => exact ⟨fun _ _ => (load_keeps_key_cfg ht).1, (load_keeps_key_cfg ht).2⟩
    · exact ⟨fun _ _ => rfl, rfl⟩
  | step b =>
    simp only [transact]
    split
    · next t ht => exact ⟨fun _ _ => (step_keeps_key_cfg ht).1, (step_keeps_key_cfg ht).2⟩
    · exact ⟨fun _ _ => rfl, rfl⟩
    · exact ⟨fun _ _ => rfl, rfl⟩
  | setKey k p => exact ⟨fun _ h => absurd rfl (h k p), rfl⟩
  | framebufferSnapshot | registerSnapshot => exact ⟨fun _ _ => rfl, rfl⟩

/-- Settles O48, by what a step and a transaction keep. -/
theorem onlyTheHostWritesKeys : Obligations.OnlyTheHostWritesKeys :=
  ⟨fun _ _ => step_keeps_key_cfg, fun a s => (transact_keeps_key_cfg a s).1,
    fun a s => (transact_keeps_key_cfg a s).2⟩

/-! ### The host's transactions -/

/-- An address outside the FONT reads 0 where memory lists nothing. -/
theorem unlistedByte_outside {a : Nat} (h : ¬(0x050 ≤ a ∧ a ≤ 0x09F)) : unlistedByte a = 0 :=
  dif_neg (by simp only [fontBase]; omega)

/-- Memory after reset: the FONT of the parameters, and 0 everywhere else (R39). -/
theorem memRead_hostReset (s : State) (a : Nat) :
    memRead (hostReset s).mem a = if 0x050 ≤ a ∧ a ≤ 0x09F then s.cfg.font.toList.getD (a - 0x050) 0 else 0 := by
  rw [hostReset_mem]
  split
  · next ha =>
    have hk : a - fontBase < s.cfg.font.toList.length := by simp only [Vector.length_toList, fontBase]; omega
    have h := memRead_writeBytes_in s.cfg.font.toList [] fontBase (a - fontBase) hk
    rw [show fontBase + (a - fontBase) = a by simp only [fontBase]; omega] at h
    exact h.trans (List.getD_eq_getElem _ _ hk).symm
  · next ha =>
    rw [memRead_writeBytes_out _ _ _ _ (by simp only [Vector.length_toList, fontBase]; omega)]
    exact unlistedByte_outside ha

/-- Settles O53, field by field. -/
theorem resetFromAnyState : Obligations.ResetFromAnyState := by
  intro s
  exact ⟨hostReset s, rfl, rfl, fun r => Vector.getElem_replicate r.isLt, rfl, rfl,
    fun k => Vector.getElem_replicate k.isLt, rfl, rfl, fun k => Vector.getElem_replicate k.isLt, fbGet_allOff, rfl,
    rfl, memRead_hostReset s⟩

/-- The snapshot lists the pixels in row-major order (R33, R48). -/
theorem framebufferSnapshot_getD (s : State) {x y : Nat} (hx : x < 64) (hy : y < 32) :
    (framebufferSnapshot s).toList.getD (y * 64 + x) false = fbGet s.fb x y := by
  have hlt : y * 64 + x < 32 * 64 := by omega
  rw [List.getD_eq_getElem _ _ (by simpa using hlt), Vector.getElem_toList, framebufferSnapshot,
    Vector.getElem_flatten, fbGet, dif_pos ⟨hy, hx⟩]
  congr 2 <;> omega

/-- Settles O56: one flag is written, and the snapshots copy fields. -/
theorem keysSetAndSnapshotsRead : Obligations.KeysSetAndSnapshotsRead := by
  refine ⟨fun s k p => ⟨setKey s k p, rfl, by simp, fun j hj => by simp [hj], rfl⟩, fun s => ?_, fun s => ?_⟩
  · exact ⟨framebufferSnapshot s, rfl, fun x y => framebufferSnapshot_getD s⟩
  · exact ⟨registerSnapshot s, rfl, rfl, rfl, rfl, rfl, rfl, rfl, rfl, rfl⟩

/-! ### What is not read -/

/-- `s` with the keys, the random byte and the sound timer changed, and nothing else. -/
def mapInputs (fk : Vector Bool 16 → Vector Bool 16) (fr : Option Byte → Option Byte) (fs : Byte → Byte)
    (s : State) : State := { s with key := fk s.key, rand := fr s.rand, st := fs s.st }

section
variable {fk : Vector Bool 16 → Vector Bool 16} {fr : Option Byte → Option Byte} {fs : Byte → Byte}

theorem skipIf_mapInputs (c : Bool) (s : State) :
    skipIf c (mapInputs fk fr fs s) = mapInputs fk fr fs (skipIf c s) := by
  cases c <;> rfl

theorem writeFlagged_mapInputs (s : State) (x : RegIdx) (b : Byte) (f : Bool) :
    writeFlagged (mapInputs fk fr fs s) x b f = mapInputs fk fr fs (writeFlagged s x b f) := by
  unfold writeFlagged
  split
  · rfl
  · simp only [mapInputs]
    split <;> rfl

theorem guardRange_mapInputs (base len : Nat) {t u : State} (h : u = mapInputs fk fr fs t) :
    guardRange base len u = mapNext (mapInputs fk fr fs) (guardRange base len t) := by
  subst h
  unfold guardRange
  split <;> rfl

theorem execRet_mapInputs (s : State) :
    execRet (mapInputs fk fr fs s) = mapNext (mapInputs fk fr fs) (execRet s) := by
  simp only [execRet, popStack, mapInputs]
  by_cases h : 0 < s.sp.val <;> simp [h, mapNext, raise, setPC, mapInputs]

theorem execCall_mapInputs (nnn : Addr12) (s : State) :
    execCall nnn (mapInputs fk fr fs s) = mapNext (mapInputs fk fr fs) (execCall nnn s) := by
  simp only [execCall, pushStack, mapInputs]
  by_cases h : s.sp.val < 16 <;> simp [h, mapNext, raise, setPC, mapInputs]

/-- The key, the random byte and ST pass through an instruction: the keys are read by SKP and SKNP only, the random byte
by RND only, and ST by none, and LD ST,Vx is the one that writes one of the three (R31, R32, R45). -/
theorem exec_mapInputs {i : Instr} (s : State) (hk : fk = id ∨ ∀ x, i ≠ .skp x ∧ i ≠ .sknp x)
    (hr : fr = id ∨ ∀ x kk, i ≠ .rnd x kk) (hs : fs = id ∨ ∀ x, i ≠ .ldSTVx x) :
    exec i (mapInputs fk fr fs s) = mapNext (mapInputs fk fr fs) (exec i s) := by
  cases i
  case skp x =>
    rcases hk with rfl | hk
    · exact congrArg _ (skipIf_mapInputs _ s)
    · exact absurd rfl (hk x).1
  case sknp x =>
    rcases hk with rfl | hk
    · exact congrArg _ (skipIf_mapInputs _ s)
    · exact absurd rfl (hk x).2
  case rnd x kk =>
    rcases hr with rfl | hr
    · rfl
    · exact absurd rfl (hr x kk)
  case ldSTVx x =>
    rcases hs with rfl | hs
    · rfl
    · exact absurd rfl (hs x)
  case ret => exact execRet_mapInputs s
  case call nnn => exact execCall_mapInputs nnn s
  case seByte | sneByte | seReg | sneReg => exact congrArg _ (skipIf_mapInputs _ s)
  case addReg | subReg | subnReg | shr | shl => exact congrArg _ (writeFlagged_mapInputs s _ _ _)
  case drw | ldB | ldMemVx | ldVxMem => exact guardRange_mapInputs _ _ rfl
  all_goals rfl

/-- So does the end of a wait, which reads the keys only (R87). -/
theorem resolveWait_mapInputs (x : RegIdx) (s : State) :
    resolveWait x (mapInputs id fr fs s) = mapInputs id fr fs (resolveWait x s) := by
  rcases resolveWait_cases x s with ⟨k, hk, he⟩ | ⟨hk, he⟩
  · rw [he]; simp only [resolveWait, show lowestKey (mapInputs id fr fs s) = some k from hk]; rfl
  · rw [he]; simp only [resolveWait, show lowestKey (mapInputs id fr fs s) = none from hk]

/-- A step up to its end passes the keys, the random byte and ST through, unless it reads them. -/
theorem step_mapInputs (s : State)
    (hk : fk = id ∨ (s.drv = .running ∧ ∀ x, ¬Runs s (.skp x) ∧ ¬Runs s (.sknp x)))
    (hr : fr = id ∨ ∀ x kk, ¬Runs s (.rnd x kk)) (hs : fs = id ∨ ∀ x, ¬Runs s (.ldSTVx x)) :
    ∃ r, step s = finishStep r ∧ step (mapInputs fk fr fs s) = finishStep (mapNext (mapInputs fk fr fs) r) := by
  cases hd : s.drv with
  | waitingForKey x =>
    obtain rfl : fk = id := hk.resolve_right fun h => by simp [hd] at h
    refine ⟨_, step_of_waiting hd, ?_⟩
    rw [step_of_waiting (s := mapInputs id fr fs s) hd]
    exact congrArg (fun t => finishStep (.next t)) (resolveWait_mapInputs x (beginStep s))
  | running =>
    by_cases hrun : ∃ i, Runs s i
    · obtain ⟨i, hi⟩ := hrun
      simp only [hi.iff_eq] at hk hr hs
      refine ⟨_, step_of_runs hi, ?_⟩
      rw [step_of_runs (s := mapInputs fk fr fs s) hi]
      exact congrArg finishStep (exec_mapInputs (atExec s) (hk.imp_right And.right) hr hs)
    · obtain ⟨f, hf⟩ := step_of_not_runs hd (not_exists.1 hrun)
      exact ⟨.fault f, hf s rfl rfl rfl, hf _ rfl rfl rfl⟩

end

/-- A step that runs no RND answers the same whatever the latch holds, which it empties at its end. -/
theorem step_rand_eq {s : State} (h : ∀ x kk, ¬Runs s (.rnd x kk)) (a : Option Byte) :
    step { s with rand := a } = step s := by
  obtain ⟨r, hs, ha⟩ := step_mapInputs (fk := id) (fr := fun _ => a) (fs := id) s (.inl rfl) (.inr h) (.inl rfl)
  rw [hs]
  refine ha.trans ?_
  cases r <;> rfl

/-- Settles O35: both random bytes give the answer of the step with the byte that is in the latch. -/
theorem onlyRndReadsTheRandomByte : Obligations.OnlyRndReadsTheRandomByte :=
  fun _ h a b => (step_rand_eq h a).trans (step_rand_eq h b).symm

/-- Settles O49: a running step other than SKP and SKNP passes the keys through. -/
theorem onlyKeyInstructionsReadKeys : Obligations.OnlyKeyInstructionsReadKeys := by
  intro s key hd hskp hsknp
  obtain ⟨r, hs, hkey⟩ := step_mapInputs (fk := fun _ => key) (fr := id) (fs := id) s
    (.inr ⟨hd, fun x => ⟨hskp x, hsknp x⟩⟩) (.inl rfl) (.inl rfl)
  rw [hs]
  refine hkey.trans ?_
  cases r <;> rfl

/-- LD ST,Vx overwrites ST, so that its step does not depend on it at all (R151). -/
theorem step_st_eq_of_ldSTVx {s : State} {x : RegIdx} (hi : Runs s (.ldSTVx x)) (b : Byte) :
    step { s with st := b } = step s := by
  rw [step_of_runs hi, step_of_runs (s := { s with st := b }) hi]
  rfl

/-- With another value in ST, a step answers the same but for ST, or stops the same. -/
theorem step_st_cases (s : State) (b : Byte) :
    ∃ fs : Byte → Byte, step { s with st := b } = mapNext (mapInputs id id fs) (step s) := by
  by_cases hst : ∃ x, Runs s (.ldSTVx x)
  · obtain ⟨x, hi⟩ := hst
    refine ⟨id, ?_⟩
    rw [step_st_eq_of_ldSTVx hi]
    cases step s <;> rfl
  · obtain ⟨r, hs, hb⟩ := step_mapInputs (fk := id) (fr := id) (fs := fun _ => b) s (.inl rfl) (.inl rfl)
      (.inr (not_exists.1 hst))
    refine ⟨fun _ => tickTimer b, ?_⟩
    rw [hs]
    refine hb.trans ?_
    cases r <;> rfl

/-- Settles O58: a step passes ST through, and the outcome and the snapshot copy it. -/
theorem soundTimerIsReadByTheHostOnly : Obligations.SoundTimerIsReadByTheHostOnly := by
  refine ⟨fun s b => ?_, fun s t r h => ⟨outcomeOf t, by simp only [transact, h], rfl⟩,
    fun s => ⟨registerSnapshot s, rfl, rfl⟩⟩
  obtain ⟨fs, hst⟩ := step_st_cases s b
  refine ⟨fun t h => ⟨mapInputs id id fs t, ?_, rfl⟩, fun f h => ?_⟩
  · rw [hst, h, mapNext]
  · rw [hst, h, mapNext]

end Sys2Proof.Machine

/-!
PROOFS. The statements on memory (spec/20_memory.md): who writes it, and the fetch of a word from it.
-/

namespace Sys2Proof.Machine

/-! ### Who writes memory -/

/-- An instruction changes memory only if it is LD B,Vx or LD [I],Vx, and then only inside its range (R53). -/
theorem Effect.mem_writers {s u : State} {i : Instr} (h : Effect s i u) {a : Nat}
    (ha : memRead u.mem a ≠ memRead s.mem a) :
    (∃ x, i = .ldB x ∧ indexAddr s 0 ≤ a ∧ a ≤ indexAddr s 2) ∨
    (∃ x : RegIdx, i = .ldMemVx x ∧ indexAddr s 0 ≤ a ∧ a ≤ indexAddr s x.val) := by
  have inside : ∀ bs : List Byte, memRead (writeBytes s.mem (indexAddr s 0) bs) a ≠ memRead s.mem a →
      indexAddr s 0 ≤ a ∧ a < indexAddr s bs.length := by
    intro bs hne
    by_contra hout
    exact hne (memRead_writeBytes_out bs _ _ _ (by simp only [indexAddr] at *; omega))
  cases h with
  | ldB x =>
    obtain ⟨hle, hlt⟩ := inside _ ha
    exact .inl ⟨x, rfl, hle, Nat.le_of_lt_succ hlt⟩
  | ldMemVx x =>
    obtain ⟨hle, hlt⟩ := inside _ ha
    rw [readVs_length] at hlt
    exact .inr ⟨x, rfl, hle, Nat.le_of_lt_succ hlt⟩
  | cls | drw | jp | jpV0 | call | ret | skip | regs | ldI | addI | ldF | ldVxK | ldDTVx | ldSTVx =>
    exact absurd rfl ha

/-- Settles O46: a waiting step leaves memory, and a running one writes what its instruction writes. -/
theorem memoryWriters : Obligations.MemoryWriters := by
  intro s t a h ha
  rcases step_effect h with ⟨x, k, -, -, rfl⟩ | ⟨x, -, rfl⟩ | ⟨i, u, hi, he, rfl⟩
  · exact absurd rfl ha
  · exact absurd rfl ha
  · simp only [hi.iff_eq]
    exact he.mem_writers ha

/-! ### Code that is stored and fetched -/

/-- A store of V0..Vx puts V[k] at I + k (R142). -/
theorem memRead_store (s : State) {x k : RegIdx} (hk : k ≤ x) :
    memRead (writeBytes s.mem (indexAddr s 0) (readVs s x)) (indexAddr s k.val) = s.v.get k := by
  have hlen : k.val < (readVs s x).length := (readVs_length s x).symm ▸ Nat.lt_succ_of_le hk
  exact (memRead_writeBytes_in _ _ _ _ hlen).trans (readVs_get s x k.val hlen)

/-- LD [I],Vx answers when its range ends at or below 0xFFF (R142). -/
theorem exec_ldMemVx_next {s : State} {x : RegIdx} (h : s.i.toNat + x.val ≤ 0xFFF) :
    exec (.ldMemVx x) s = .next (setMem s (writeBytes s.mem (indexAddr s 0) (readVs s x))) :=
  guardRange_next.2 ⟨(inRange_iff _ _).2 (by simp only [indexAddr]; omega), rfl⟩

/-- Settles O42: the fetch at I reads back V0 and V1, since memory is the one store of code and data. -/
theorem storedCodeIsFetched : Obligations.StoredCodeIsFetched := by
  intro s x hx hrange
  refine ⟨_, exec_ldMemVx_next hrange, fun u i hmem hdrv hpc hdec => ⟨hdrv, ?_, ?_⟩⟩
  · rw [hpc]
    omega
  · have h0 := memRead_store s (x := x) (k := 0) (Nat.zero_le _)
    have h1 := memRead_store s (x := x) (k := 1) hx
    rw [hmem, hpc, ← hdec, ← h0, ← h1]
    rfl

/-! ### The fetched word -/

/-- An instruction fails by its own check only (R161). -/
theorem exec_fault {i : Instr} {s : State} {f : Fault} (h : exec i s = .fault f) : OwnError i s f := by
  have range : ∀ {len : Nat} {t : State}, guardRange (indexAddr s 0) len t = .fault f →
      0 < len ∧ 0x1000 < s.i.toNat + len ∧ f = .outOfBounds (max s.i.toNat 0x1000) := by
    intro len t hg
    obtain ⟨hr, rfl⟩ := guardRange_fault.1 hg
    have hout : ¬(len = 0 ∨ s.i.toNat + len ≤ 4096) := by
      rw [← Bool.not_eq_true, inRange_iff] at hr
      exact hr
    exact ⟨by omega, by omega, rfl⟩
  cases i
  case call nnn =>
    simp only [exec, execCall] at h
    split at h
    · next hp =>
      cases h
      exact .inl ⟨nnn, rfl, pushStack_none.1 hp, rfl⟩
    · cases h
  case ret =>
    simp only [exec, execRet] at h
    split at h
    · next hp =>
      cases h
      exact .inr (.inl ⟨rfl, popStack_none.1 hp, rfl⟩)
    · cases h
  case drw x y n =>
    obtain ⟨hpos, hlt, hf⟩ := range h
    exact .inr (.inr (.inl ⟨x, y, n, rfl, hpos, by omega, hf⟩))
  case ldB x =>
    obtain ⟨-, hlt, hf⟩ := range h
    exact .inr (.inr (.inr (.inl ⟨x, rfl, by omega, hf⟩)))
  case ldMemVx x =>
    obtain ⟨-, hlt, hf⟩ := range h
    exact .inr (.inr (.inr (.inr ⟨x, .inl rfl, by omega, hf⟩)))
  case ldVxMem x =>
    obtain ⟨-, hlt, hf⟩ := range h
    exact .inr (.inr (.inr (.inr ⟨x, .inr rfl, by omega, hf⟩)))
  all_goals cases h

/-- `UnknownOpcode` is the decoder's error, no instruction's own (R153). -/
theorem not_ownError_unknownOpcode {i : Instr} {s : State} {w : Word} : ¬OwnError i s (.unknownOpcode w) := by
  simp [OwnError]

/-- A running step that fetches a word of no form fails with that word (R153). -/
theorem step_of_unknownOpcode {s : State} {w : Word} (hd : s.drv = .running) (hpc : s.pc.toNat ≤ 0xFFE)
    (hw : decode (wordAt s.mem s.pc.toNat) = .unknownOpcode w) : step s = .fault (.unknownOpcode w) := by
  have hr : inRange s.pc.toNat 2 = true := (inRange_iff _ _).2 (by omega)
  simp only [step, cycle, hd, runningStep, hr, runWord, hw, if_true, raise]

/-- Settles O7: the fetch is the word of the two bytes at PC, and only the decoder raises `UnknownOpcode`. -/
theorem fetchReadsBigEndianWord : Obligations.FetchReadsBigEndianWord := by
  intro s hd hpc w hw
  have hfetch : wordAt s.mem s.pc.toNat = w := (wordOfBytes_eq _ _).trans hw.symm
  subst hfetch
  refine ⟨fun i => ⟨fun hi => hi.2.2, fun hi => ⟨hd, hpc, hi⟩⟩, fun h => ?_, step_of_unknownOpcode hd hpc⟩
  obtain ⟨-, ⟨hle, -⟩ | ⟨-, u, hu, hf⟩ | ⟨i, -, hi⟩⟩ := step_fault_cases h
  · omega
  · cases hf
    exact hu
  · exact absurd (exec_fault hi) not_ownError_unknownOpcode

end Sys2Proof.Machine

/-!
PROOFS. The statements on the encoding (spec/30_encoding.md): the row of an instruction and the fields of a word tie the
decoder, the encoder and the opcode map together.
-/

namespace Sys2Proof

/-! ### The row of an instruction and the fields of a word -/

/-- The row of R79 with the number `n`; the default matches no word. -/
def rowAt (n : Nat) : OpcodeRow := opcodeMap.getD (n - 1) ⟨0, 0, 1⟩

theorem rowAt_num : ∀ r ∈ opcodeMap, rowAt r.num = r := by decide

/-- The row of R79 that `i` is a form of. -/
def Instr.row (i : Instr) : OpcodeRow := rowAt i.rowNum

/-- The word `w` is of `i`'s form (R79). -/
def Instr.InRow (i : Instr) (w : Word) : Prop := w &&& i.row.mask = i.row.value

/-- The instruction of `i`'s form whose operands are the fields of `w` (R71). -/
def Instr.withFields (w : Word) : Instr → Instr
  | .cls => .cls
  | .ret => .ret
  | .jp _ => .jp (fieldNNN w)
  | .call _ => .call (fieldNNN w)
  | .seByte _ _ => .seByte (fieldX w) (fieldKK w)
  | .sneByte _ _ => .sneByte (fieldX w) (fieldKK w)
  | .seReg _ _ => .seReg (fieldX w) (fieldY w)
  | .ldByte _ _ => .ldByte (fieldX w) (fieldKK w)
  | .addByte _ _ => .addByte (fieldX w) (fieldKK w)
  | .ldReg _ _ => .ldReg (fieldX w) (fieldY w)
  | .orReg _ _ => .orReg (fieldX w) (fieldY w)
  | .andReg _ _ => .andReg (fieldX w) (fieldY w)
  | .xorReg _ _ => .xorReg (fieldX w) (fieldY w)
  | .addReg _ _ => .addReg (fieldX w) (fieldY w)
  | .subReg _ _ => .subReg (fieldX w) (fieldY w)
  | .shr _ => .shr (fieldX w)
  | .subnReg _ _ => .subnReg (fieldX w) (fieldY w)
  | .shl _ => .shl (fieldX w)
  | .sneReg _ _ => .sneReg (fieldX w) (fieldY w)
  | .ldI _ => .ldI (fieldNNN w)
  | .jpV0 _ => .jpV0 (fieldNNN w)
  | .rnd _ _ => .rnd (fieldX w) (fieldKK w)
  | .drw _ _ _ => .drw (fieldX w) (fieldY w) (fieldN w)
  | .skp _ => .skp (fieldX w)
  | .sknp _ => .sknp (fieldX w)
  | .ldVxDT _ => .ldVxDT (fieldX w)
  | .ldVxK _ => .ldVxK (fieldX w)
  | .ldDTVx _ => .ldDTVx (fieldX w)
  | .ldSTVx _ => .ldSTVx (fieldX w)
  | .addI _ => .addI (fieldX w)
  | .ldF _ => .ldF (fieldX w)
  | .ldB _ => .ldB (fieldX w)
  | .ldMemVx _ => .ldMemVx (fieldX w)
  | .ldVxMem _ => .ldVxMem (fieldX w)

/-- The row of number `i.rowNum` is `i`'s row. -/
theorem Instr.row_eq {i : Instr} {r : OpcodeRow} (hr : r ∈ opcodeMap) (hn : i.rowNum = r.num) : i.row = r := by
  rw [row, hn, rowAt_num r hr]

@[simp] theorem Instr.rowNum_withFields (i : Instr) (w : Word) : (i.withFields w).rowNum = i.rowNum := by
  cases i <;> rfl

/-- Every row of the map is the row of some instruction: of what its match value decodes to. -/
theorem exists_rowNum_eq : ∀ r ∈ opcodeMap, ∃ i : Instr, i.rowNum = r.num := by
  intro r hr
  have table : ∀ q ∈ opcodeMap, (decodeTableWord 16 q.value.toNat).map Instr.rowNum = some q.num := by decide
  obtain ⟨i, -, hi⟩ := Option.map_eq_some_iff.1 (table r hr)
  exact ⟨i, hi⟩

/-- DRW's row count is a 4-bit field, so fields make a well-formed instruction (R73). -/
theorem Instr.wf_withFields (i : Instr) (w : Word) : (i.withFields w).wf = true := by
  cases i with
  | drw => exact decide_eq_true (Nat.le_of_lt_succ (nib4 w).isLt)
  | _ => rfl

/-! ### The decoder, a value of n1 at a time -/

theorem decode_of_nib1_zero {w : Word} (h : nib1 w = 0x0) : decode w = decodeZero w := by rw [decode, h]; rfl

theorem decode_of_nib1_alu {w : Word} (h : nib1 w = 0x8) : decode w = decodeAlu w := by rw [decode, h]; rfl

theorem decode_of_nib1_keys {w : Word} (h : nib1 w = 0xE) : decode w = decodeKeys w := by rw [decode, h]; rfl

theorem decode_of_nib1_misc {w : Word} (h : nib1 w = 0xF) : decode w = decodeMisc w := by rw [decode, h]; rfl

/-- A word of `i`'s row decodes to `i`'s form, its operands the word's fields (R79). An `Encodes` statement is this
lemma at one instruction of the form. -/
theorem decode_of_inRow {i : Instr} {w : Word} (h : i.InRow w) : decode w = .instr (i.withFields w) := by
  cases i <;> dsimp only [Instr.InRow, Instr.row, Instr.rowNum] at h
  case cls | ret =>
    obtain ⟨h1, h4⟩ := mask_F00F h
    rw [decode_of_nib1_zero h1, decodeZero, h4]
    rfl
  case ldReg | orReg | andReg | xorReg | addReg | subReg | shr | subnReg | shl =>
    obtain ⟨h1, h4⟩ := mask_F00F h
    rw [decode_of_nib1_alu h1, decodeAlu, h4]
    rfl
  case skp | sknp =>
    obtain ⟨h1, hk⟩ := mask_F0FF h
    rw [decode_of_nib1_keys h1, decodeKeys, hk]
    rfl
  case ldVxDT | ldVxK | ldDTVx | ldSTVx | addI | ldF | ldB | ldMemVx | ldVxMem =>
    obtain ⟨h1, hk⟩ := mask_F0FF h
    rw [decode_of_nib1_misc h1, decodeMisc, hk]
    rfl
  all_goals
    rw [decode, mask_F000 h]
    rfl

/-- The four groups of R80. -/
def InUnknownGroup (w : Word) : Prop :=
  (nib1 w = 0x0 ∧ nib4 w ∉ [0x0, 0xE]) ∨
  (nib1 w = 0x8 ∧ nib4 w ∈ [0x8, 0x9, 0xA, 0xB, 0xC, 0xD, 0xF]) ∨
  (nib1 w = 0xE ∧ fieldKK w ∉ [0x9E, 0xA1]) ∨
  (nib1 w = 0xF ∧ fieldKK w ∉ [0x07, 0x0A, 0x15, 0x18, 0x1E, 0x29, 0x33, 0x55, 0x65])

/-- A word of the four groups is rejected (R80). -/
theorem decode_of_inUnknownGroup {w : Word} (h : InUnknownGroup w) : decode w = .unknownOpcode w := by
  -- In each family the values that select a form lie outside the group, so only the last branch is left.
  rcases h with ⟨h1, h⟩ | ⟨h1, h⟩ | ⟨h1, h⟩ | ⟨h1, h⟩
  · rw [decode_of_nib1_zero h1, decodeZero]
    split <;> simp_all [BitVec.toNat_eq]
  · rw [decode_of_nib1_alu h1, decodeAlu]
    split <;> simp_all [BitVec.toNat_eq]
  · rw [decode_of_nib1_keys h1, decodeKeys]
    split <;> simp_all [BitVec.toNat_eq]
  · rw [decode_of_nib1_misc h1, decodeMisc]
    split <;> simp_all [BitVec.toNat_eq]

/-- What the decoder's answer says of the word: it is of the row of the instruction answered, whose operands are the
word's fields, or it is the word rejected and lies in one of the four groups (R75, R80). -/
def Decoded.Tells (w : Word) : Decoded → Prop
  | .instr i => i.InRow w ∧ i.withFields w = i
  | .unknownOpcode u => u = w ∧ InUnknownGroup w

theorem decodeZero_tells {w : Word} (h1 : nib1 w = 0x0) : (decodeZero w).Tells w := by
  unfold decodeZero
  split <;> dsimp only [Decoded.Tells, Instr.InRow, Instr.row, Instr.rowNum]
  case h_3 =>
    refine ⟨rfl, .inl ⟨h1, ?_⟩⟩
    simp_all [BitVec.toNat_eq]
  all_goals next h4 => exact ⟨of_mask_F00F h1 rfl rfl (BitVec.eq_of_toNat_eq h4), rfl⟩

theorem decodeAlu_tells {w : Word} (h1 : nib1 w = 0x8) : (decodeAlu w).Tells w := by
  unfold decodeAlu
  split <;> dsimp only [Decoded.Tells, Instr.InRow, Instr.row, Instr.rowNum]
  case h_10 =>
    refine ⟨rfl, .inr (.inl ⟨h1, ?_⟩)⟩
    have := (nib4 w).isLt
    simp only [imp_false] at *
    have hn : (nib4 w).toNat = 8 ∨ (nib4 w).toNat = 9 ∨ (nib4 w).toNat = 10 ∨ (nib4 w).toNat = 11 ∨
        (nib4 w).toNat = 12 ∨ (nib4 w).toNat = 13 ∨ (nib4 w).toNat = 15 := by omega
    simpa [BitVec.toNat_eq] using hn
  all_goals next h4 => exact ⟨of_mask_F00F h1 rfl rfl (BitVec.eq_of_toNat_eq h4), rfl⟩

theorem decodeKeys_tells {w : Word} (h1 : nib1 w = 0xE) : (decodeKeys w).Tells w := by
  unfold decodeKeys
  split <;> dsimp only [Decoded.Tells, Instr.InRow, Instr.row, Instr.rowNum]
  case h_3 =>
    refine ⟨rfl, .inr (.inr (.inl ⟨h1, ?_⟩))⟩
    simp_all [BitVec.toNat_eq]
  all_goals next hk => exact ⟨of_mask_F0FF h1 rfl (BitVec.eq_of_toNat_eq hk), rfl⟩

theorem decodeMisc_tells {w : Word} (h1 : nib1 w = 0xF) : (decodeMisc w).Tells w := by
  unfold decodeMisc
  split <;> dsimp only [Decoded.Tells, Instr.InRow, Instr.row, Instr.rowNum]
  case h_10 =>
    refine ⟨rfl, .inr (.inr (.inr ⟨h1, ?_⟩))⟩
    simp_all [BitVec.toNat_eq]
  all_goals next hk => exact ⟨of_mask_F0FF h1 rfl (BitVec.eq_of_toNat_eq hk), rfl⟩

/-- Every answer of the decoder (R75). -/
theorem decode_tells (w : Word) : (decode w).Tells w := by
  unfold decode
  split
  case h_1 h => exact decodeZero_tells (BitVec.eq_of_toNat_eq h)
  case h_9 h => exact decodeAlu_tells (BitVec.eq_of_toNat_eq h)
  case h_15 h => exact decodeKeys_tells (BitVec.eq_of_toNat_eq h)
  case h_16 h => exact decodeMisc_tells (BitVec.eq_of_toNat_eq h)
  case h_17 =>
    have := (nib1 w).isLt
    simp only [imp_false] at *
    omega
  all_goals next h =>
    dsimp only [Decoded.Tells, Instr.InRow, Instr.row, Instr.rowNum]
    exact ⟨of_mask_F000 (BitVec.eq_of_toNat_eq h) rfl rfl rfl, rfl⟩

/-- The words that decode to `i` are the words of `i`'s row whose fields are `i`'s operands. -/
theorem decode_eq_instr_iff {w : Word} {i : Instr} : decode w = .instr i ↔ i.InRow w ∧ i.withFields w = i := by
  constructor
  · intro h
    have ht := decode_tells w
    rwa [h] at ht
  · rintro ⟨hr, hf⟩
    rw [decode_of_inRow hr, hf]

/-- A rejected word is rejected as itself, and is of the four groups (R80). -/
theorem decode_eq_unknownOpcode_iff {w u : Word} : decode w = .unknownOpcode u ↔ u = w ∧ InUnknownGroup w := by
  constructor
  · intro h
    have ht := decode_tells w
    rwa [h] at ht
  · rintro ⟨rfl, hg⟩
    exact decode_of_inUnknownGroup hg

theorem Instr.wf_of_decode {w : Word} {i : Instr} (h : decode w = .instr i) : i.wf = true := by
  obtain ⟨-, hf⟩ := decode_eq_instr_iff.1 h
  rw [← hf]
  exact i.wf_withFields w

/-- A word is of a row of the map exactly when it decodes to that row's form (R79). -/
theorem row_iff_decode {r : OpcodeRow} (hr : r ∈ opcodeMap) (w : Word) :
    w &&& r.mask = r.value ↔ ∃ i, decode w = .instr i ∧ i.rowNum = r.num := by
  constructor
  · intro h
    obtain ⟨i, hi⟩ := exists_rowNum_eq r hr
    have hrow : i.InRow w := by rwa [Instr.InRow, Instr.row_eq hr hi]
    exact ⟨_, decode_of_inRow hrow, by rw [Instr.rowNum_withFields, hi]⟩
  · rintro ⟨i, hd, hi⟩
    obtain ⟨hrow, -⟩ := decode_eq_instr_iff.1 hd
    rwa [Instr.InRow, Instr.row_eq hr hi] at hrow

/-- Settles O4: a word of two rows decodes to one form, so the rows have one number. -/
theorem decoderIsTheOpcodeMap : Obligations.DecoderIsTheOpcodeMap := by
  refine ⟨fun w r hr => row_iff_decode hr w, fun r hr q hq w hwr hwq => ?_⟩
  obtain ⟨i, hi, hir⟩ := (row_iff_decode hr w).1 hwr
  obtain ⟨j, hj, hjq⟩ := (row_iff_decode hq w).1 hwq
  obtain rfl : i = j := Decoded.instr.inj (hi.symm.trans hj)
  exact (Instr.row_eq hr hir).symm.trans (Instr.row_eq hq hjq)

/-- Settles O5: the decoder rejects exactly the four groups, and what it answers else is made of a word's fields. -/
theorem unknownWordsAreFourGroups : Obligations.UnknownWordsAreFourGroups := by
  refine ⟨fun w => decode_eq_unknownOpcode_iff.trans (and_iff_right rfl), fun w => ?_⟩
  cases h : decode w with
  | unknownOpcode u => exact .inl (by rw [(decode_eq_unknownOpcode_iff.1 h).1])
  | instr i => exact .inr ⟨i, rfl, Instr.wf_of_decode h⟩

/-! ### The encoder -/

theorem encNNN_fields {w : Word} {a : BitVec 4} (h : nib1 w = a) : encNNN a (fieldNNN w) = w := by
  subst h
  apply BitVec.eq_of_toNat_eq
  rw [encNNN_toNat, nib1_eq_ofNat, fieldNNN_toNat]
  omega

theorem encXKK_fields {w : Word} {a : BitVec 4} {k : Byte} (h1 : nib1 w = a) (hk : fieldKK w = k) :
    encXKK a (fieldX w) k = w := by
  subst h1 hk
  apply BitVec.eq_of_toNat_eq
  rw [encXKK_toNat, nib1_eq_ofNat, fieldX_val, fieldKK_toNat]
  omega

theorem encXYN_fields {w : Word} {a n : BitVec 4} (h1 : nib1 w = a) (h4 : nib4 w = n) :
    encXYN a (fieldX w) (fieldY w) n = w := by
  subst h1 h4
  apply BitVec.eq_of_toNat_eq
  rw [encXYN_toNat, nib1_eq_ofNat, fieldX_val, fieldY_val, nib4_eq_ofNat]
  omega

theorem fieldX_eq_iff {w u : Word} : fieldX w = fieldX u ↔ nib2 w = nib2 u := BitVec.toFin_inj

theorem fieldY_eq_iff {w u : Word} : fieldY w = fieldY u ↔ nib3 w = nib3 u := BitVec.toFin_inj

theorem word_ext_iff {w u : Word} :
    w = u ↔ nib1 w = nib1 u ∧ nib2 w = nib2 u ∧ nib3 w = nib3 u ∧ nib4 w = nib4 u :=
  ⟨fun h => h ▸ ⟨rfl, rfl, rfl, rfl⟩, fun ⟨h1, h2, h3, h4⟩ => word_ext h1 h2 h3 h4⟩

/-- The care mask of SE Vx,Vy and SNE Vx,Vy leaves out n4 (R76). -/
theorem and_FFF0_eq_iff {w u : Word} :
    w &&& 0xFFF0 = u &&& 0xFFF0 ↔ nib1 w = nib1 u ∧ fieldX w = fieldX u ∧ fieldY w = fieldY u := by
  have m : nib1 0xFFF0 = 0xF ∧ nib2 0xFFF0 = 0xF ∧ nib3 0xFFF0 = 0xF ∧ nib4 0xFFF0 = 0#4 := by decide
  simp only [word_ext_iff, nib1_and, nib2_and, nib3_and, nib4_and, m, and_F, BitVec.and_zero, and_true,
    fieldX_eq_iff, fieldY_eq_iff]

/-- The care mask of SHR and SHL leaves out y (R78). -/
theorem and_FF0F_eq_iff {w u : Word} :
    w &&& 0xFF0F = u &&& 0xFF0F ↔ nib1 w = nib1 u ∧ fieldX w = fieldX u ∧ nib4 w = nib4 u := by
  have m : nib1 0xFF0F = 0xF ∧ nib2 0xFF0F = 0xF ∧ nib3 0xFF0F = 0#4 ∧ nib4 0xFF0F = 0xF := by decide
  simp only [word_ext_iff, nib1_and, nib2_and, nib3_and, nib4_and, m, and_F, BitVec.and_zero, true_and,
    fieldX_eq_iff]

theorem and_FFFF (w : Word) : w &&& 0xFFFF = w := BitVec.and_allOnes

/-- The row's mask selects bits that the form reads. -/
theorem Instr.careMask_and_mask (i : Instr) : i.careMask &&& i.row.mask = i.row.mask := by
  cases i <;> dsimp only [careMask, row, rowNum] <;> decide

/-- Words that agree in the bits `i`'s form reads are in `i`'s row together. -/
theorem Instr.InRow.congr {i : Instr} {w u : Word} (h : i.InRow u) (hc : w &&& i.careMask = u &&& i.careMask) :
    i.InRow w := by
  rw [InRow, ← i.careMask_and_mask, ← BitVec.and_assoc] at h ⊢
  rwa [hc]

/-- Words that agree in the bits `i`'s form reads give it the same operands. -/
theorem Instr.withFields_congr {i : Instr} {w u : Word} (hc : w &&& i.careMask = u &&& i.careMask) :
    i.withFields w = i.withFields u := by
  cases i
  case cls | ret => rfl
  case seReg | sneReg =>
    obtain ⟨-, hx, hy⟩ := and_FFF0_eq_iff.1 hc
    simp only [withFields, hx, hy]
  case shr | shl =>
    obtain ⟨-, hx, -⟩ := and_FF0F_eq_iff.1 hc
    simp only [withFields, hx]
  all_goals
    rw [careMask, and_FFFF, and_FFFF] at hc
    rw [hc]

/-- Encoding the fields of a word of `i`'s row writes the word again, up to the bits `i`'s form does not read. -/
theorem Instr.InRow.encode_withFields {i : Instr} {w : Word} (h : i.InRow w) :
    encode (i.withFields w) &&& i.careMask = w &&& i.careMask := by
  cases i <;> dsimp only [InRow, row, rowNum] at h <;> dsimp only [withFields, encode, careMask]
  case cls | ret => exact Eq.trans (by decide) h.symm
  case jp | call | ldI | jpV0 => exact congrArg (· &&& _) (encNNN_fields (mask_F000 h))
  case seByte | sneByte | ldByte | addByte | rnd => exact congrArg (· &&& _) (encXKK_fields (mask_F000 h) rfl)
  case seReg | sneReg =>
    exact and_FFF0_eq_iff.2
      ⟨(nib1_encXYN _ _ _ _).trans (mask_F000 h).symm, fieldX_encXYN _ _ _ _, fieldY_encXYN _ _ _ _⟩
  case drw => exact congrArg (· &&& _) (encXYN_fields (mask_F000 h) (BitVec.ofNat_toNat 4 (nib4 w)).symm)
  case shr | shl =>
    obtain ⟨h1, h4⟩ := mask_F00F h
    exact and_FF0F_eq_iff.2
      ⟨(nib1_encXYN _ _ _ _).trans h1.symm, fieldX_encXYN _ _ _ _, (nib4_encXYN _ _ _ _).trans h4.symm⟩
  case ldReg | orReg | andReg | xorReg | addReg | subReg | subnReg =>
    obtain ⟨h1, h4⟩ := mask_F00F h
    exact congrArg (· &&& _) (encXYN_fields h1 h4)
  all_goals
    obtain ⟨h1, hk⟩ := mask_F0FF h
    exact congrArg (· &&& _) (encXKK_fields h1 hk)

open Laws in
/-- The encoded word is of the instruction's own row (R79). -/
theorem encodesRow : ∀ i : Instr, EncodesRow.Statement i
  | .cls => EncodesRow.cls | .ret => EncodesRow.ret | .jp _ => EncodesRow.jp _ | .call _ => EncodesRow.call _
  | .seByte _ _ => EncodesRow.seByte _ _ | .sneByte _ _ => EncodesRow.sneByte _ _
  | .seReg _ _ => EncodesRow.seReg _ _ | .ldByte _ _ => EncodesRow.ldByte _ _
  | .addByte _ _ => EncodesRow.addByte _ _ | .ldReg _ _ => EncodesRow.ldReg _ _ | .orReg _ _ => EncodesRow.orReg _ _
  | .andReg _ _ => EncodesRow.andReg _ _ | .xorReg _ _ => EncodesRow.xorReg _ _
  | .addReg _ _ => EncodesRow.addReg _ _ | .subReg _ _ => EncodesRow.subReg _ _ | .shr _ => EncodesRow.shr _
  | .subnReg _ _ => EncodesRow.subnReg _ _ | .shl _ => EncodesRow.shl _ | .sneReg _ _ => EncodesRow.sneReg _ _
  | .ldI _ => EncodesRow.ldI _ | .jpV0 _ => EncodesRow.jpV0 _ | .rnd _ _ => EncodesRow.rnd _ _
  | .drw _ _ _ => EncodesRow.drw _ _ _ | .skp _ => EncodesRow.skp _ | .sknp _ => EncodesRow.sknp _
  | .ldVxDT _ => EncodesRow.ldVxDT _ | .ldVxK _ => EncodesRow.ldVxK _ | .ldDTVx _ => EncodesRow.ldDTVx _
  | .ldSTVx _ => EncodesRow.ldSTVx _ | .addI _ => EncodesRow.addI _ | .ldF _ => EncodesRow.ldF _
  | .ldB _ => EncodesRow.ldB _ | .ldMemVx _ => EncodesRow.ldMemVx _ | .ldVxMem _ => EncodesRow.ldVxMem _

theorem Instr.inRow_encode (i : Instr) : i.InRow (encode i) := by
  obtain ⟨r, hr, hn, h⟩ := encodesRow i
  rwa [InRow, row_eq hr hn.symm]

/-- The fields of the encoded word are the operands; DRW's row count needs its bound (R73). -/
theorem Instr.withFields_encode {i : Instr} (h : i.wf = true) : i.withFields (encode i) = i := by
  cases i <;> dsimp only [withFields, encode]
  case jp | call | ldI | jpV0 => rw [fieldNNN_encNNN]
  case drw x y n =>
    have hn : n ≤ 15 := of_decide_eq_true h
    have hN : fieldN (encXYN 0xD x y (BitVec.ofNat 4 n)) = n := by
      rw [fieldN, nib4_encXYN, BitVec.toNat_ofNat, Nat.mod_eq_of_lt (by omega)]
    rw [fieldX_encXYN, fieldY_encXYN, hN]
  case seReg | sneReg | ldReg | orReg | andReg | xorReg | addReg | subReg | subnReg =>
    rw [fieldX_encXYN, fieldY_encXYN]
  case shr | shl => rw [fieldX_encXYN]
  case seByte | sneByte | ldByte | addByte | rnd => rw [fieldX_encXKK, fieldKK_encXKK]
  all_goals rw [fieldX_encXKK]

/-- Settles O3: both sides say that `w` is of `i`'s row and that its fields are `i`'s operands. -/
theorem decodedWordsAreTheEncodings : Obligations.DecodedWordsAreTheEncodings := by
  intro w i
  constructor
  · intro h
    obtain ⟨hrow, hf⟩ := decode_eq_instr_iff.1 h
    have he := hrow.encode_withFields
    rw [hf] at he
    exact ⟨Instr.wf_of_decode h, he.symm⟩
  · rintro ⟨hwf, hc⟩
    exact decode_eq_instr_iff.2 ⟨i.inRow_encode.congr hc,
      (Instr.withFields_congr hc).trans (Instr.withFields_encode hwf)⟩

/-- Settles O2: the encoded word agrees with itself in every bit. -/
theorem decodeInvertsEncode : Obligations.DecodeInvertsEncode :=
  fun i hwf => (decodedWordsAreTheEncodings (encode i) i).2 ⟨hwf, rfl⟩

/-- Settles O1, by running the decoder on each word. -/
theorem wordsWrittenOutDecode : Obligations.WordsWrittenOutDecode := by
  unfold Obligations.WordsWrittenOutDecode
  decide

end Sys2Proof

/-!
PROOFS. The statements on the cycle driver (spec/40_cycle_driver.md): what a step answers, when it fails, the timers'
tick, and the end of a key wait.
-/

namespace Sys2Proof.Machine

/-! ### The tick and the end of a step -/

/-- The tick is the clamped subtraction of one (R166). -/
@[simp] theorem tickTimer_toNat (b : Byte) : (tickTimer b).toNat = b.toNat - 1 := by
  unfold tickTimer
  split
  · bv_omega
  · next h => simp only [BitVec.ofNat_eq_ofNat, BitVec.toNat_ofNat]; omega

/-- The tick as R166 writes it, with the timer compared as a byte. -/
theorem tickTimer_eq_ite (b : Byte) : tickTimer b = if b = 0 then 0 else b - 1 := by
  by_cases hb : b = 0
  · subst hb; rfl
  · have hpos : 0 < b.toNat := by bv_omega
    rw [tickTimer, if_pos hpos, if_neg hb]

/-- Settles O6: a step is its instruction's answer, closed by the tick. -/
theorem stepRunsDecodedInstruction : Obligations.StepRunsDecodedInstruction := by
  intro s i hi
  refine ⟨fun t ht => ?_, fun f hf => ?_⟩
  · rw [← tickTimer_eq_ite, ← tickTimer_eq_ite]
    exact (step_of_runs hi).trans (congrArg finishStep ht)
  · exact (step_of_runs hi).trans (congrArg finishStep hf)

/-! ### No refusal -/

/-- No arm of the executor is a refusal (R74). -/
theorem exec_not_refused (i : Instr) (s : State) (r : Refusal) : exec i s ≠ .refused r := by
  cases i
  case call nnn => simp only [exec, execCall]; split <;> nofun
  case ret => simp only [exec, execRet]; split <;> nofun
  case drw | ldB | ldMemVx | ldVxMem => exact guardRange_not_refused
  all_goals nofun

/-- An answer that is no refusal ends a step with a next state or an error. -/
theorem finishStep_answers {r : Result} (h : ∀ q, r ≠ .refused q) :
    (∃ t, finishStep r = .next t) ∨ ∃ f, finishStep r = .fault f := by
  cases r with
  | next t => exact .inl ⟨closeStep t, rfl⟩
  | fault f => exact .inr ⟨f, rfl⟩
  | refused q => exact absurd rfl (h q)

/-- Settles O9: a waiting step answers, a running one ends with its instruction's answer or with the error of the fetch
or the decoder. -/
theorem everyStepAnswersOrFaults : Obligations.EveryStepAnswersOrFaults := by
  intro s
  cases hd : s.drv with
  | waitingForKey x => exact .inl ⟨_, step_of_waiting hd⟩
  | running =>
    by_cases hrun : ∃ i, Runs s i
    · obtain ⟨i, hi⟩ := hrun
      rw [step_of_runs hi]
      exact finishStep_answers (exec_not_refused i _)
    · obtain ⟨f, hf⟩ := step_of_not_runs hd (not_exists.1 hrun)
      exact .inr ⟨f, hf s rfl rfl rfl⟩

/-! ### When a step fails -/

/-- An instruction whose own check fails raises that error (R161): the converse of `exec_fault`. -/
theorem exec_of_ownError {i : Instr} {s : State} {f : Fault} (h : OwnError i s f) : exec i s = .fault f := by
  have range : ∀ {len : Nat} {t : State}, 0 < len → 0x1000 < s.i.toNat + len →
      guardRange (indexAddr s 0) len t = .fault (.outOfBounds (max s.i.toNat 0x1000)) := by
    intro len t hpos hlt
    refine guardRange_fault.2 ⟨?_, rfl⟩
    rw [← Bool.not_eq_true, inRange_iff]
    simp only [indexAddr]
    omega
  rcases h with ⟨a, rfl, hsp, rfl⟩ | ⟨rfl, hsp, rfl⟩ | ⟨x, y, n, rfl, hpos, hlt, rfl⟩ | ⟨x, rfl, hlt, rfl⟩ |
    ⟨x, rfl | rfl, hlt, rfl⟩
  · simp only [exec, execCall, pushStack_none.2 hsp, raise]
  · simp only [exec, execRet, popStack_none.2 hsp, raise]
  · exact range hpos (by omega)
  · exact range (by omega) (by omega)
  · exact range (by omega) (by omega)
  · exact range (by omega) (by omega)

/-- A running step whose fetch reaches above 0xFFF fails by it (R56). -/
theorem step_of_fetch_out {s : State} (hd : s.drv = .running) (hpc : 0xFFF ≤ s.pc.toNat) :
    step s = .fault (rangeFault s.pc.toNat) := by
  have hr : ¬inRange s.pc.toNat 2 = true := by rw [inRange_iff]; omega
  simp only [step, cycle, hd, runningStep, if_neg hr, raise]

/-- When a step fails, and how: the driver's state, PC, memory, SP and I decide it (R153 to R156, R161). -/
theorem step_fault_iff (s : State) (f : Fault) :
    step s = .fault f ↔ s.drv = .running ∧
      ((0xFFF ≤ s.pc.toNat ∧ f = rangeFault s.pc.toNat) ∨
       (s.pc.toNat ≤ 0xFFE ∧ ∃ u, decode (wordAt s.mem s.pc.toNat) = .unknownOpcode u ∧ f = .unknownOpcode u) ∨
       (∃ i, Runs s i ∧ OwnError i s f)) := by
  constructor
  · intro h
    obtain ⟨hd, hfetch | hdecode | ⟨i, hi, he⟩⟩ := step_fault_cases h
    · exact ⟨hd, .inl hfetch⟩
    · exact ⟨hd, .inr (.inl hdecode)⟩
    · exact ⟨hd, .inr (.inr ⟨i, hi, exec_fault (s := atExec s) he⟩)⟩
  · rintro ⟨hd, ⟨hpc, rfl⟩ | ⟨hpc, u, hu, rfl⟩ | ⟨i, hi, he⟩⟩
    · exact step_of_fetch_out hd hpc
    · exact step_of_unknownOpcode hd hpc hu
    · rw [step_of_runs hi, finishStep_fault]
      exact exec_of_ownError he

/-- Settles O10: nothing that decides whether a step fails is a key, the random byte or the last step's output. -/
theorem errorsLeaveNoTraceAndRepeat : Obligations.ErrorsLeaveNoTraceAndRepeat := by
  intro s f h
  have again : ∀ (key : Vector Bool 16) (rand : Option Byte) (draws : Nat) (c : Bool),
      step { s with key := key, rand := rand, draws := draws, fbChanged := c } = .fault f :=
    fun _ _ _ _ => (step_fault_iff _ f).2 ((step_fault_iff s f).1 h)
  refine ⟨again, fun b => ?_⟩
  have hb : step (supplyRand s b) = .fault f := again s.key (some b) s.draws s.fbChanged
  simp only [transact, hb]

/-! ### The timers -/

/-- LD DT,Vx and LD ST,Vx write V[x] to their timer, and no other instruction writes a timer (R31). -/
theorem Effect.timers {s u : State} {i : Instr} (h : Effect s i u) :
    (∀ x, i = .ldDTVx x → u.dt = s.v.get x) ∧ ((∀ x, i ≠ .ldDTVx x) → u.dt = s.dt) ∧
    (∀ x, i = .ldSTVx x → u.st = s.v.get x) ∧ ((∀ x, i ≠ .ldSTVx x) → u.st = s.st) := by
  cases h with
  | ldDTVx y => exact ⟨by rintro x ⟨⟩; rfl, fun h => absurd rfl (h y), nofun, fun _ => rfl⟩
  | ldSTVx y => exact ⟨nofun, fun _ => rfl, by rintro x ⟨⟩; rfl, fun h => absurd rfl (h y)⟩
  | skip hk | regs hk =>
    exact ⟨by rintro x rfl; (cases hk), fun _ => rfl, by rintro x rfl; (cases hk), fun _ => rfl⟩
  | cls | drw | jp | jpV0 | call | ret | ldI | addI | ldF | ldB | ldMemVx | ldVxK =>
    exact ⟨nofun, fun _ => rfl, nofun, fun _ => rfl⟩

/-- The end of a wait writes no timer (R87, R88). -/
theorem resolveWait_timers (x : RegIdx) (s : State) : (resolveWait x s).dt = s.dt ∧ (resolveWait x s).st = s.st := by
  rcases resolveWait_cases x s with ⟨k, -, he⟩ | ⟨-, he⟩ <;> rw [he] <;> exact ⟨rfl, rfl⟩

/-- Settles O11: a waiting step writes no timer before the tick, and a running one what its instruction writes. -/
theorem timersTickEveryAnsweringStep : Obligations.TimersTickEveryAnsweringStep := by
  intro s t h
  rcases step_next_cases h with ⟨x, hd, rfl⟩ | ⟨i, u, hi, hu, rfl⟩
  · have idle : ∀ i, ¬Runs s i := fun i hi => hi.not_waiting hd
    obtain ⟨hdt, hst⟩ := resolveWait_timers x (beginStep s)
    simp [idle, hdt, hst]
  · obtain ⟨hdt, hdt', hst, hst'⟩ := (exec_effect hu).timers
    simp only [hi.iff_eq, closeStep_dt, closeStep_st, tickTimer_toNat]
    exact ⟨fun x hx => by rw [hdt x hx]; rfl, fun hx => by rw [hdt' hx]; rfl,
      fun x hx => by rw [hst x hx]; rfl, fun hx => by rw [hst' hx]; rfl⟩

/-! ### The key wait -/

/-- The lowest pressed key is the pressed key below which none is pressed (R87). -/
theorem lowestKey_eq_some_iff {s : State} {k : RegIdx} :
    lowestKey s = some k ↔ s.key.get k = true ∧ ∀ j, j < k → s.key.get j = false := by
  refine ⟨lowestKey_some, fun ⟨hk, hlow⟩ => ?_⟩
  cases hl : lowestKey s with
  | none => simp [lowestKey_none.1 hl k] at hk
  | some m =>
    obtain ⟨hm, hlow'⟩ := lowestKey_some hl
    rcases lt_trichotomy m k with hlt | rfl | hlt
    · simp [hlow m hlt] at hm
    · rfl
    · simp [hlow' k hlt] at hk

@[simp] theorem keyByte_toNat (k : RegIdx) : (keyByte k).toNat = k.val := by
  have := k.isLt
  simp only [keyByte, BitVec.toNat_ofNat]
  omega

/-- A waiting step with a key pressed ends the wait with the lowest one (R87). -/
theorem step_of_wait_pressed {s : State} {x k : RegIdx} (hd : s.drv = .waitingForKey x) (hk : lowestKey s = some k) :
    step s = .next (closeStep (setDrv (writeV (beginStep s) x (keyByte k)) .running)) := by
  simp only [step_of_waiting hd, resolveWait, show lowestKey (beginStep s) = some k from hk, finishStep]

/-- A waiting step with no key pressed waits on (R88). -/
theorem step_of_wait_released {s : State} {x : RegIdx} (hd : s.drv = .waitingForKey x) (hk : lowestKey s = none) :
    step s = .next (closeStep (beginStep s)) := by
  simp only [step_of_waiting hd, resolveWait, show lowestKey (beginStep s) = none from hk, finishStep]

/-- Settles O15: the step writes one register, sets the driver running and ticks. -/
theorem waitEndsWithLowestPressedKey : Obligations.WaitEndsWithLowestPressedKey := by
  intro s x k hd hk hlow
  refine ⟨_, step_of_wait_pressed hd (lowestKey_eq_some_iff.2 ⟨hk, hlow⟩), ?_, fun r hr => ?_,
    tickTimer_toNat s.dt, tickTimer_toNat s.st, rfl⟩
  · simp
  · simp [hr]

/-- Settles O16: the step only ticks. -/
theorem waitWithoutKeyOnlyTicks : Obligations.WaitWithoutKeyOnlyTicks := by
  intro s x hd hnone
  exact ⟨_, step_of_wait_released hd (lowestKey_none.2 hnone), tickTimer_toNat s.dt, tickTimer_toNat s.st, rfl⟩

end Sys2Proof.Machine

/-!
PROOFS. The statements on the display (spec/41_display.md): the pixels a sprite covers, what DRW makes of them and of VF,
and CLS.
-/

namespace Sys2Proof.Machine

/-! ### CLS -/

/-- Settles O18: the word is of CLS's row, and CLS puts the all-off framebuffer in place. -/
theorem clsTurnsEveryPixelOff : Obligations.ClsTurnsEveryPixelOff :=
  ⟨fun _ h => decode_of_inRow (i := .cls) h, fun s => ⟨setFb s Framebuffer.allOff, rfl, fbGet_allOff, rfl, rfl⟩⟩

/-! ### The pixels a sprite covers -/

/-- The pixels under set sprite bits are those that the sequential drawing of R101 plots: row `py - y0` of the bytes read
from I on, bit `7 - (px - x0)`, inside the grid. -/
theorem spriteBit_iff {s : State} {x y : RegIdx} {n px py : Nat} :
    SpriteBit s x y n px py ↔ px ≤ 63 ∧ py ≤ 31 ∧ spriteRow (readV s y) ≤ py ∧
      py < spriteRow (readV s y) + (readBytes s.mem (indexAddr s 0) n).length ∧ spriteCol (readV s x) ≤ px ∧
      px < spriteCol (readV s x) + 8 ∧
      ((readBytes s.mem (indexAddr s 0) n).getD (py - spriteRow (readV s y)) 0).getLsbD
        (7 - (px - spriteCol (readV s x))) = true := by
  have row : ∀ r, r < n → (readBytes s.mem (indexAddr s 0) n).getD r 0 = memRead s.mem (s.i.toNat + r) := by
    intro r hr
    have hlen := (readBytes_length s.mem (indexAddr s 0) n).symm ▸ hr
    exact (List.getD_eq_getElem _ _ hlen).trans (readBytes_get _ _ _ _ hlen)
  rw [readBytes_length]
  constructor
  · rintro ⟨hx, hy, r, c, hr, hc, rfl, rfl, hbit⟩
    refine ⟨hx, hy, Nat.le_add_right _ _, Nat.add_lt_add_left hr _, Nat.le_add_right _ _, Nat.add_lt_add_left hc _, ?_⟩
    rwa [spriteRow, readV_eq, Nat.add_sub_cancel_left, row r hr, spriteCol, readV_eq, Nat.add_sub_cancel_left]
  · rintro ⟨hx, hy, hrow, hrn, hcol, hc8, hbit⟩
    rw [row _ (by omega)] at hbit
    exact ⟨hx, hy, _, _, by omega, by omega, (Nat.add_sub_cancel' hcol).symm, (Nat.add_sub_cancel' hrow).symm, hbit⟩

section
variable {s : State} {x y : RegIdx} {n px py : Nat}

/-- The collision: a set, unclipped sprite bit on a pixel that was on before the DRW (R105). -/
theorem drawSprite_collision_iff :
    (drawSprite s x y n).2 = true ↔ ∃ px py, SpriteBit s x y n px py ∧ fbGet s.fb px py = true := by
  simp only [drawSprite, drawRows_collision, spriteBit_iff, and_assoc, Bool.false_eq_true, false_or]

/-! ### The state after DRW -/

/-- The state after a DRW in range. -/
abbrev drawn (s : State) (x y : RegIdx) (n : Nat) : State :=
  writeV (setFb s (drawSprite s x y n).1) regF (flagByte (drawSprite s x y n).2)

/-- DRW answers when its bytes end at or below 0xFFF, and always with no row (R106). -/
theorem exec_drw_next (h : n = 0 ∨ s.i.toNat + n - 1 ≤ 0xFFF) : exec (.drw x y n) s = .next (drawn s x y n) :=
  guardRange_next.2 ⟨(inRange_iff _ _).2 (by simp only [indexAddr]; omega), rfl⟩

/-- A pixel under a set, unclipped sprite bit is plotted once (R105). -/
theorem fbGet_drawn_of_spriteBit (h : SpriteBit s x y n px py) :
    fbGet (drawn s x y n).fb px py = plot s.cfg.drawMode (fbGet s.fb px py) := by
  rw [writeV_fb, setFb_fb, drawSprite, fbGet_drawRows, if_pos (spriteBit_iff.1 h)]

theorem fbGet_drawn_of_forceOn (h : SpriteBit s x y n px py) (hmode : s.cfg.drawMode = .forceOn) :
    fbGet (drawn s x y n).fb px py = true := by
  rw [fbGet_drawn_of_spriteBit h, hmode, plot]

theorem fbGet_drawn_of_xor (h : SpriteBit s x y n px py) (hmode : s.cfg.drawMode = .xor) :
    fbGet (drawn s x y n).fb px py = !fbGet s.fb px py := by
  rw [fbGet_drawn_of_spriteBit h, hmode, plot]

/-- Every other pixel stays (R103, R105). -/
theorem fbGet_drawn_of_not_spriteBit (h : ¬SpriteBit s x y n px py) :
    fbGet (drawn s x y n).fb px py = fbGet s.fb px py := by
  rw [writeV_fb, setFb_fb, drawSprite, fbGet_drawRows, if_neg (mt spriteBit_iff.2 h)]

/-- In `FORCE_ON` DRW turns no pixel off (R105, D11). -/
theorem fbGet_drawn_of_on (hmode : s.cfg.drawMode = .forceOn) (hon : fbGet s.fb px py = true) :
    fbGet (drawn s x y n).fb px py = true := by
  by_cases hbit : SpriteBit s x y n px py
  · exact fbGet_drawn_of_forceOn hbit hmode
  · rw [fbGet_drawn_of_not_spriteBit hbit, hon]

theorem flagByte_eq_one_iff {f : Bool} : flagByte f = 1 ↔ f = true := by cases f <;> decide

theorem flagByte_eq_zero_iff {f : Bool} : flagByte f = 0 ↔ ¬f = true := by cases f <;> decide

/-- VF is 1 after a DRW with a collision (R105). -/
theorem drawn_get_F_eq_one_iff :
    (drawn s x y n).v.get 15 = 1 ↔ ∃ px py, SpriteBit s x y n px py ∧ fbGet s.fb px py = true := by
  rw [writeV_v, get_set, if_pos rfl, flagByte_eq_one_iff, drawSprite_collision_iff]

/-- VF is 0 after a DRW without one (R105). -/
theorem drawn_get_F_eq_zero_iff :
    (drawn s x y n).v.get 15 = 0 ↔ ¬∃ px py, SpriteBit s x y n px py ∧ fbGet s.fb px py = true := by
  rw [writeV_v, get_set, if_pos rfl, flagByte_eq_zero_iff, drawSprite_collision_iff]

/-- With neither coordinate in VF, the sprite lies where it lay before the DRW (R107). -/
theorem spriteBit_drawn_iff (hx : x ≠ 15) (hy : y ≠ 15) :
    SpriteBit (drawn s x y n) x y n px py ↔ SpriteBit s x y n px py := by
  simp [SpriteBit, hx, hy]

end

/-! ### The statements on DRW -/

/-- Settles O19, by what DRW makes of a pixel under a set bit, of any other pixel, and of VF. -/
theorem drwDrawsPixelByPixel : Obligations.DrwDrawsPixelByPixel := by
  refine ⟨fun _ h => decode_of_inRow (i := .drw 0 0 0) h, fun s x y n hr => ?_, fun s x y n hpos hout =>
    exec_of_ownError (.inr (.inr (.inl ⟨x, y, n, rfl, hpos, hout, rfl⟩)))⟩
  exact ⟨drawn s x y n, exec_drw_next hr, fun _ _ => fbGet_drawn_of_forceOn,
    fun _ _ => fbGet_drawn_of_xor, fun _ _ => fbGet_drawn_of_not_spriteBit,
    drawn_get_F_eq_one_iff.2, drawn_get_F_eq_zero_iff.2, fun r hne => by simp [hne], rfl, rfl⟩

/-- Settles O20, pixel by pixel: the second sprite covers the pixels that the first covered. -/
theorem drawingTwice : Obligations.DrawingTwice := by
  intro s x y n hx hy hr
  have same : ∀ {px py}, SpriteBit (drawn s x y n) x y n px py ↔ SpriteBit s x y n px py := spriteBit_drawn_iff hx hy
  have outside : ∀ {px py}, ¬SpriteBit s x y n px py →
      fbGet (drawn (drawn s x y n) x y n).fb px py = fbGet (drawn s x y n).fb px py :=
    fun h => fbGet_drawn_of_not_spriteBit (mt same.1 h)
  refine ⟨drawn s x y n, drawn (drawn s x y n) x y n, exec_drw_next hr, exec_drw_next hr,
    fun hmode => fb_ext fun px py _ _ => ?_, fun hmode => ⟨fb_ext fun px py _ _ => ?_, ?_⟩⟩
  · by_cases hbit : SpriteBit s x y n px py
    · rw [fbGet_drawn_of_xor (same.2 hbit) hmode, fbGet_drawn_of_xor hbit hmode, Bool.not_not]
    · rw [outside hbit, fbGet_drawn_of_not_spriteBit hbit]
  · by_cases hbit : SpriteBit s x y n px py
    · rw [fbGet_drawn_of_forceOn (same.2 hbit) hmode, fbGet_drawn_of_forceOn hbit hmode]
    · exact outside hbit
  · simp only [drawn_get_F_eq_one_iff, same]
    exact ⟨fun ⟨px, py, hbit, _⟩ => ⟨px, py, hbit⟩,
      fun ⟨px, py, hbit⟩ => ⟨px, py, hbit, fbGet_drawn_of_forceOn hbit hmode⟩⟩

/-- Settles O21: a step that changes the framebuffer ran CLS or DRW, and in `FORCE_ON` DRW turns no pixel off. -/
theorem onlyClsTurnsPixelsOff : Obligations.OnlyClsTurnsPixelsOff := by
  intro s t px py hmode h hon hoff
  obtain ⟨hiff, hkeep⟩ := onlyClsAndDrwWriteTheFramebuffer.1 s t h
  cases hc : t.fbChanged with
  | false => simp [hkeep hc, hon] at hoff
  | true =>
    refine (hiff.1 hc).resolve_right ?_
    rintro ⟨x, y, n, hi⟩
    obtain ⟨u, hu, rfl⟩ := hi.effect h
    cases hu with
    | drw =>
      have hstill : fbGet (drawn (atExec s) x y n).fb px py = true := fbGet_drawn_of_on hmode hon
      exact absurd (hstill.symm.trans hoff) (by decide)
    | skip hk | regs hk => cases hk

end Sys2Proof.Machine

/-!
PROOFS. The statements on control flow (spec/42_flow.md): the return stack under CALL and RET, the two jumps, and the
register-compare skips.
-/

namespace Sys2Proof.Machine

/-! ### The return stack -/

/-- The state after a CALL with `k` entries on the stack. -/
abbrev called (s : State) (nnn : Addr12) (k : Fin 16) : State :=
  { s with stack := s.stack.set k.val s.pc k.isLt, sp := k.succ, pc := addrOperand nnn }

/-- The state after a RET with `k + 1` entries on the stack. -/
abbrev returned (s : State) (k : Fin 16) : State := { s with sp := k.castSucc, pc := s.stack.get k }

/-- A push with a free slot fills it (R114). -/
theorem pushStack_of_lt {s : State} {k : Fin 16} (a : Word) (hk : s.sp.val = k.val) :
    pushStack s a = some { s with stack := s.stack.set k.val a k.isLt, sp := k.succ } := by
  rw [pushStack, dif_pos (hk ▸ k.isLt)]
  simp only [hk]
  rfl

/-- A pop with an entry left reads the topmost one (R112). -/
theorem popStack_of_pos {s : State} {k : Fin 16} (hk : s.sp.val = k.val + 1) :
    popStack s = some (s.stack.get k, { s with sp := k.castSucc }) := by
  rw [popStack, dif_pos (hk ▸ k.val.succ_pos)]
  simp only [hk, Nat.add_sub_cancel]
  rfl

/-- CALL answers while a slot is free (R114). -/
theorem exec_call_next {s : State} {k : Fin 16} (nnn : Addr12) (hk : s.sp.val = k.val) :
    exec (.call nnn) s = .next (called s nnn k) := by
  simp only [exec, execCall, pushStack_of_lt _ hk, setPC]

/-- CALL fails on a full stack (R154). -/
theorem exec_call_fault {s : State} (nnn : Addr12) (hs : s.sp.val = 16) : exec (.call nnn) s = .fault .stackOverflow :=
  exec_of_ownError (.inl ⟨nnn, rfl, hs, rfl⟩)

/-- RET answers while an entry is left (R112). -/
theorem exec_ret_next {s : State} {k : Fin 16} (hk : s.sp.val = k.val + 1) : exec .ret s = .next (returned s k) := by
  simp only [exec, execRet, popStack_of_pos hk, setPC]

/-- RET fails on an empty stack (R155). -/
theorem exec_ret_fault {s : State} (hs : s.sp.val = 0) : exec .ret s = .fault .stackUnderflow :=
  exec_of_ownError (.inr (.inl ⟨rfl, hs, rfl⟩))

/-- Settles O26: CALL's entry is the one that RET reads, from any state with the SP and the stack CALL left. -/
theorem retUndoesCall : Obligations.RetUndoesCall := by
  intro s nnn hs
  obtain ⟨k, hk⟩ : ∃ k : Fin 16, s.sp.val = k.val := ⟨⟨s.sp.val, hs⟩, rfl⟩
  refine ⟨called s nnn k, exec_call_next nnn hk, fun u hsp hstack => ?_⟩
  have hret : exec .ret u = .next (returned u k) := exec_ret_next (congrArg Fin.val hsp)
  have hpop : u.stack.get k = s.pc := by rw [hstack, get_set, if_pos rfl]
  exact ⟨_, hret, hpop, Fin.ext hk.symm⟩

theorem execAll_cons_of_next {i : Instr} {is : List Instr} {s t : State} (h : exec i s = .next t) :
    execAll (i :: is) s = execAll is t := by
  simp only [execAll, h]

/-- As many CALLs as there are free slots answer, each with one entry more (R114). -/
theorem execAll_calls_next {s : State} {as : List Addr12} (h : s.sp.val + as.length ≤ 16) :
    ∃ t, execAll (as.map .call) s = .next t ∧ t.sp.val = s.sp.val + as.length := by
  induction as generalizing s with
  | nil => exact ⟨s, rfl, rfl⟩
  | cons a as ih =>
    rw [List.length_cons] at h ⊢
    have hs : s.sp.val < 16 := by omega
    have hcall : exec (.call a) s = .next (called s a ⟨s.sp.val, hs⟩) := exec_call_next a rfl
    have hsp : (called s a ⟨s.sp.val, hs⟩).sp.val = s.sp.val + 1 := rfl
    obtain ⟨t, hrun, ht⟩ := ih (s := called s a ⟨s.sp.val, hs⟩) (by omega)
    exact ⟨t, (execAll_cons_of_next hcall).trans hrun, by omega⟩

/-- Settles O27: the free slots are used up one a CALL, and CALL fails on a full stack. -/
theorem sixteenCallsNest : Obligations.SixteenCallsNest := by
  intro s as h
  obtain ⟨t, hrun, ht⟩ := execAll_calls_next h
  exact ⟨t, hrun, ht, fun hfull a => exec_call_fault a (ht.trans hfull)⟩

/-- Settles O23, by what RET answers with an entry on the stack and with none. -/
theorem retPopsTheReturnAddress : Obligations.RetPopsTheReturnAddress :=
  ⟨fun _ h => decode_of_inRow (i := .ret) h, fun s k hk => ⟨returned s k, exec_ret_next hk, rfl, rfl, rfl⟩,
    fun _ => exec_ret_fault⟩

/-- Settles O25, by what CALL answers with a free slot and with none. -/
theorem callPushesTheReturnAddress : Obligations.CallPushesTheReturnAddress := by
  refine ⟨fun _ h => decode_of_inRow (i := .call 0) h, fun s nnn k hk => ?_, fun _ nnn => exec_call_fault nnn⟩
  exact ⟨called s nnn k, exec_call_next nnn hk, rfl, by simp, fun j hj => by simp [hj], addrOperand_toNat nnn, rfl⟩

/-! ### The jumps -/

/-- What a step runs depends on the driver's state, PC and memory only. -/
theorem Runs.congr {s t : State} {i : Instr} (hi : Runs s i) (hd : t.drv = s.drv) (hp : t.pc = s.pc)
    (hm : t.mem = s.mem) : Runs t i := by
  simpa only [Runs, hd, hp, hm] using hi

/-- A step whose instruction only assigns PC ends with that PC and the timers ticked (R92, R110). -/
theorem step_of_jump {s : State} {i : Instr} {a : Word} (hi : Runs s i)
    (he : exec i (atExec s) = .next (setPC (atExec s) a)) : step s = .next (closeStep (setPC (atExec s) a)) := by
  rw [step_of_runs hi, he, finishStep]

/-- A jump to 0xFFF or above answers, and the fetch after it fails (R110). -/
theorem step_after_jump_out {s : State} {a : Word} (hd : s.drv = .running) (ha : 0xFFF ≤ a.toNat) :
    step (closeStep (setPC (atExec s) a)) = .fault (rangeFault a.toNat) :=
  step_of_fetch_out (s := closeStep (setPC (atExec s) a)) hd ha

/-- Settles O24: a jump to its own address leaves all that the next step's fetch reads, and 0xFFF has no second byte. -/
theorem jpSetsPc : Obligations.JpSetsPc := by
  refine ⟨fun _ h => decode_of_inRow (i := .jp 0) h, fun s nnn =>
    ⟨setPC s (addrOperand nnn), rfl, addrOperand_toNat nnn, rfl⟩,
    fun s nnn hi hself => ?_, fun s hi => ⟨_, step_of_jump hi rfl, step_after_jump_out hi.1 (by decide)⟩⟩
  have hpc : addrOperand nnn = s.pc := BitVec.eq_of_toNat_eq ((addrOperand_toNat nnn).trans hself)
  exact ⟨_, step_of_jump hi rfl, hi.congr rfl hpc rfl, hpc, tickTimer_toNat s.dt, tickTimer_toNat s.st⟩

/-- Settles O29: the target is the sum of two naturals too small to wrap. -/
theorem jpV0AddsV0 : Obligations.JpV0AddsV0 := by
  refine ⟨fun _ h => decode_of_inRow (i := .jpV0 0) h, fun s nnn => ?_, fun s nnn hi hout => ?_⟩
  · have hle : (offsetTarget s nnn).toNat ≤ 0x10FE := by
      have := nnn.isLt
      have := (s.v.get 0).isLt
      rw [offsetTarget_toNat]
      omega
    exact ⟨setPC s (offsetTarget s nnn), rfl, offsetTarget_toNat s nnn, hle, rfl⟩
  · have hfetch : 0xFFF ≤ (offsetTarget (atExec s) nnn).toNat := (offsetTarget_toNat (atExec s) nnn).symm ▸ hout
    exact ⟨_, _, step_of_jump hi rfl, step_after_jump_out hi.1 hfetch⟩

/-! ### The skips -/

/-- A skip on a condition: PC moves on by 2 exactly when it holds, and nothing else changes (R108). -/
theorem skipIf_eq {c : Bool} {p : Prop} [Decidable p] (s : State) (h : c = true ↔ p) :
    skipIf c s = { s with pc := if p then s.pc + 2 else s.pc } := by
  by_cases hp : p
  · rw [skipIf, if_pos (h.2 hp), if_pos hp, setPC]
  · rw [skipIf, if_neg (mt h.1 hp), if_neg hp]

/-- A skip on a condition's failure. -/
theorem skipIf_eq_of_not {c : Bool} {p : Prop} [Decidable p] (s : State) (h : c = true ↔ ¬p) :
    skipIf c s = { s with pc := if p then s.pc else s.pc + 2 } := by
  rw [skipIf_eq s h, ite_not]

/-- Settles O28: the four tests are equality and inequality of bytes. -/
theorem compareSkips : Obligations.CompareSkips :=
  ⟨fun _ h => decode_of_inRow (i := .seByte 0 0) h, fun _ h => decode_of_inRow (i := .sneByte 0 0) h,
    fun _ h => decode_of_inRow (i := .seReg 0 0) h, fun _ h => decode_of_inRow (i := .sneReg 0 0) h,
    fun s _ _ _ => ⟨congrArg _ (skipIf_eq s beq_iff_eq), congrArg _ (skipIf_eq_of_not s bne_iff_ne),
      congrArg _ (skipIf_eq s beq_iff_eq), congrArg _ (skipIf_eq_of_not s bne_iff_ne)⟩⟩

end Sys2Proof.Machine

/-!
PROOFS. The statements on register arithmetic and logic (spec/43_alu.md): the instructions that write one register, and
those that write a flag beside it.
-/

namespace Sys2Proof.Machine

/-! ### The instructions that write one register -/

theorem writeV_get_same (s : State) (x : RegIdx) (b : Byte) : (writeV s x b).v.get x = b := readV_writeV_same s x b

theorem writeV_get_ne (s : State) {x r : RegIdx} (b : Byte) (h : r ≠ x) : (writeV s x b).v.get r = s.v.get r :=
  (get_set s.v x r b).trans (if_neg h)

/-- Settles O30: each form writes one byte to V[x], the loaded one or the wrapped sum. -/
theorem byteLoadAndAdd : Obligations.ByteLoadAndAdd := by
  refine ⟨fun _ h => decode_of_inRow (i := .ldByte 0 0) h, fun _ h => decode_of_inRow (i := .addByte 0 0) h,
    fun s x kk => ⟨⟨writeV s x kk, rfl, writeV_get_same s x kk, fun _ => writeV_get_ne s kk, rfl⟩,
      writeV s x (readV s x + kk), rfl, ?_, fun _ => writeV_get_ne s _, rfl⟩⟩
  rw [writeV_get_same, readV_eq, BitVec.toNat_add]

/-- Settles O31: each form writes one byte to V[x], and the bitwise operators act on each bit. -/
theorem copyAndBitwise : Obligations.CopyAndBitwise := by
  refine ⟨fun _ h => decode_of_inRow (i := .ldReg 0 0) h, fun _ h => decode_of_inRow (i := .orReg 0 0) h,
    fun _ h => decode_of_inRow (i := .andReg 0 0) h, fun _ h => decode_of_inRow (i := .xorReg 0 0) h, fun s x y =>
    ⟨⟨writeV s x (readV s y), rfl, writeV_get_same s x _, fun _ => writeV_get_ne s _, rfl⟩,
      ⟨writeV s x (readV s x ||| readV s y), rfl, fun k => ?_, fun _ => writeV_get_ne s _, rfl⟩,
      ⟨writeV s x (readV s x &&& readV s y), rfl, fun k => ?_, fun _ => writeV_get_ne s _, rfl⟩,
      ⟨writeV s x (readV s x ^^^ readV s y), rfl, fun k => ?_, fun _ => writeV_get_ne s _, rfl⟩⟩⟩
  · rw [writeV_get_same, BitVec.getLsbD_or, readV_eq, readV_eq]
  · rw [writeV_get_same, BitVec.getLsbD_and, readV_eq, readV_eq]
  · rw [writeV_get_same, BitVec.getLsbD_xor, readV_eq, readV_eq]

/-- Settles O34: the byte is the one in the latch, or the step's free value, and no operand of RND chooses it. -/
theorem rndMasksTheRandomByte : Obligations.RndMasksTheRandomByte := by
  refine ⟨fun _ h => decode_of_inRow (i := .rnd 0 0) h, fun s => ⟨randByte s, fun b hb => ?_, fun x kk =>
    ⟨writeV s x (randByte s &&& kk), rfl, writeV_get_same s x _, fun _ => writeV_get_ne s _, rfl⟩⟩⟩
  rw [randByte, hb, Option.getD_some]

/-! ### The instructions that write a flag -/

/-- An instruction whose effect is one `write_flagged` answers the result and the flag that it writes (R122). An
`AnswersFlagged` statement is this lemma with the two values read as numbers. -/
theorem answersFlagged_of_writeFlagged {i : Instr} {x : RegIdx} {result flag : State → Nat} {res : State → Byte}
    {f : State → Bool} (he : ∀ s, exec i s = .next (writeFlagged s x (res s) (f s)))
    (hres : ∀ s, (res s).toNat = result s) (hflag : ∀ s, (flagByte (f s)).toNat = flag s) :
    AnswersFlagged i x result flag := by
  intro s
  have hget : ∀ r, (writeFlagged s x (res s) (f s)).v.get r =
      if r = 15 then (if x = 15 ∧ s.cfg.vfWriteOrder = .resultLast then res s else flagByte (f s))
      else if r = x then res s else s.v.get r := fun r => readV_writeFlagged s x r (res s) (f s)
  refine ⟨_, he s, writeFlagged_eq s x _ _, fun hx => ⟨?_, ?_⟩, fun hx hlast => ?_, fun hx hlast => ?_,
    fun r hrx hrF => ?_⟩
  · rw [hget, if_neg hx, if_pos rfl, hres]
  · rw [hget, if_pos rfl, if_neg (fun h => hx h.1), hflag]
  · rw [hget, if_pos rfl, if_neg (by simp [hlast]), hflag]
  · rw [hget, if_pos rfl, if_pos ⟨hx, hlast⟩, hres]
  · rw [hget, if_neg hrF, if_neg hrx]

/-- The flag of a condition. -/
theorem flagByte_toNat_of_iff {f : Bool} {p : Prop} [Decidable p] (h : f = true ↔ p) :
    (flagByte f).toNat = if p then 1 else 0 := (flagByte_toNat f).trans (if_congr h rfl rfl)

/-- The difference modulo 256, on naturals with no truncation. -/
theorem byte_sub_toNat (a b : Byte) : (a - b).toNat = (256 + a.toNat - b.toNat) % 256 := by
  rw [BitVec.toNat_sub]
  have := b.isLt
  congr 1
  omega

theorem byte_shiftRight_one_toNat (a : Byte) : (a >>> 1).toNat = a.toNat / 2 := by
  rw [BitVec.toNat_ushiftRight, Nat.shiftRight_one]

theorem byte_shiftLeft_one_toNat (a : Byte) : (a <<< 1).toNat = 2 * a.toNat % 256 := by
  rw [BitVec.toNat_shiftLeft, Nat.shiftLeft_eq, Nat.mul_comm]

/-- SHR's flag as a number is the low bit (R131). -/
theorem flagByte_shiftedOutLow_toNat (a : Byte) : (flagByte (shiftedOutLow a)).toNat = a.toNat % 2 := by
  rw [flagByte_toNat_of_iff (shiftedOutLow_iff a)]
  split <;> omega

/-- SHL's flag as a number is the high bit (R133). -/
theorem flagByte_shiftedOutHigh_toNat (a : Byte) : (flagByte (shiftedOutHigh a)).toNat = a.toNat / 128 := by
  have := a.isLt
  rw [flagByte_toNat_of_iff (shiftedOutHigh_iff a)]
  split <;> omega

/-- Settles O32: the carry and the two borrows are comparisons of the operands' numbers. -/
theorem addSubSubnWithFlag : Obligations.AddSubSubnWithFlag :=
  ⟨fun _ h => decode_of_inRow (i := .addReg 0 0) h, fun _ h => decode_of_inRow (i := .subReg 0 0) h,
    fun _ h => decode_of_inRow (i := .subnReg 0 0) h, fun x y =>
    ⟨answersFlagged_of_writeFlagged (fun _ => rfl) (fun s => BitVec.toNat_add (readV s x) (readV s y))
        fun s => flagByte_toNat_of_iff (carryOut_iff (readV s x) (readV s y)),
      answersFlagged_of_writeFlagged (fun _ => rfl) (fun s => byte_sub_toNat (readV s x) (readV s y))
        fun s => flagByte_toNat_of_iff (notBorrow_iff (readV s x) (readV s y)),
      answersFlagged_of_writeFlagged (fun _ => rfl) (fun s => byte_sub_toNat (readV s y) (readV s x))
        fun s => flagByte_toNat_of_iff (notBorrow_iff (readV s y) (readV s x))⟩⟩

/-- Settles O33: the flag is the bit of V[x] that the shift drops. -/
theorem shiftsByOneWithFlag : Obligations.ShiftsByOneWithFlag :=
  ⟨fun _ h => decode_of_inRow (i := .shr 0) h, fun _ h => decode_of_inRow (i := .shl 0) h, fun x =>
    ⟨answersFlagged_of_writeFlagged (fun _ => rfl) (fun s => byte_shiftRight_one_toNat (readV s x))
        fun s => flagByte_shiftedOutLow_toNat (readV s x),
      answersFlagged_of_writeFlagged (fun _ => rfl) (fun s => byte_shiftLeft_one_toNat (readV s x))
        fun s => flagByte_shiftedOutHigh_toNat (readV s x)⟩⟩

end Sys2Proof.Machine

/-!
PROOFS. The statements on the index register and the memory transfers (spec/44_index_memory.md): what a store leaves in
memory, what a load leaves in the registers, and the new values of I.
-/

namespace Sys2Proof.Machine

/-! ### Stores from I on -/

/-- A store from I on leaves every byte outside its `n + 1` addresses (R137). -/
theorem memRead_writeBytes_index_out (s : State) {bs : List Byte} {n a : Nat} (hlen : bs.length = n + 1)
    (ha : a < indexAddr s 0 ∨ indexAddr s n < a) :
    memRead (writeBytes s.mem (indexAddr s 0) bs) a = memRead s.mem a :=
  memRead_writeBytes_out bs s.mem _ a (by simp only [indexAddr] at *; omega)

/-- A transfer between V0..Vx and memory fails when its range reaches above 0xFFF (R137, D13). -/
theorem exec_transfer_fault {i : Instr} {s : State} {x : RegIdx} (hi : i = .ldMemVx x ∨ i = .ldVxMem x)
    (h : 0xFFF < s.i.toNat + x.val) : exec i s = .fault (.outOfBounds (max s.i.toNat 0x1000)) :=
  exec_of_ownError (.inr (.inr (.inr (.inr ⟨x, hi, h, rfl⟩))))

/-- Settles O39, by what the store of V0..Vx puts inside its range and leaves outside it. -/
theorem registerStore : Obligations.RegisterStore :=
  ⟨fun _ h => decode_of_inRow (i := .ldMemVx 0) h, fun s x h =>
    ⟨_, exec_ldMemVx_next h, fun _ => memRead_store s, fun _ => memRead_writeBytes_index_out s (readVs_length s x), rfl⟩,
    fun _ _ => exec_transfer_fault (.inl rfl)⟩

/-! ### Loads from I on -/

/-- The state after a LD Vx,[I] in range. -/
abbrev loaded (s : State) (x : RegIdx) : State := writeVs s (readBytes s.mem (indexAddr s 0) (x.val + 1))

/-- LD Vx,[I] answers when its range ends at or below 0xFFF (R143). -/
theorem exec_ldVxMem_next {s : State} {x : RegIdx} (h : s.i.toNat + x.val ≤ 0xFFF) :
    exec (.ldVxMem x) s = .next (loaded s x) :=
  guardRange_next.2 ⟨(inRange_iff _ _).2 (by simp only [indexAddr]; omega), rfl⟩

/-- A load of V0..Vx puts the byte at I + k into V[k] (R143). -/
theorem loaded_get_of_le (s : State) {x k : RegIdx} (hk : k ≤ x) :
    (loaded s x).v.get k = memRead s.mem (indexAddr s k.val) := by
  have hlt : k.val < 0 + (readBytes s.mem (indexAddr s 0) (x.val + 1)).length := by
    rw [readBytes_length, Nat.zero_add]
    exact Nat.lt_succ_of_le hk
  rw [writeVs_v, Vector.get_eq_getElem, writeRegsFrom_getElem, dif_pos ⟨Nat.zero_le _, hlt⟩]
  exact readBytes_get _ _ _ _ _

/-- A load of V0..Vx leaves the registers above x (R143). -/
theorem loaded_get_of_lt (s : State) {x k : RegIdx} (hk : x < k) : (loaded s x).v.get k = s.v.get k := by
  have hout : ¬k.val < 0 + (readBytes s.mem (indexAddr s 0) (x.val + 1)).length := by
    rw [readBytes_length, Nat.zero_add]
    exact Nat.not_lt_of_le hk
  rw [writeVs_v, Vector.get_eq_getElem, writeRegsFrom_getElem, dif_neg fun h => hout h.2]
  exact (Vector.get_eq_getElem _ _).symm

/-- Settles O40, by what the load leaves in V0..Vx and above. -/
theorem registerLoad : Obligations.RegisterLoad :=
  ⟨fun _ h => decode_of_inRow (i := .ldVxMem 0) h, fun s x h =>
    ⟨loaded s x, exec_ldVxMem_next h, fun _ => loaded_get_of_le s, fun _ => loaded_get_of_lt s, rfl⟩,
    fun _ _ => exec_transfer_fault (.inr rfl)⟩

/-- Settles O41: V[k] is stored at I + k, and the load reads V[k] there. -/
theorem storeThenLoadRestores : Obligations.StoreThenLoadRestores := by
  intro s x h
  refine ⟨_, exec_ldMemVx_next h, fun u hi hbytes => ?_⟩
  have hui : u.i = s.i := hi
  refine ⟨loaded u x, exec_ldVxMem_next (hui ▸ h), fun k hk => ?_⟩
  calc (loaded u x).v.get k
      = memRead u.mem (s.i.toNat + k.val) := by rw [loaded_get_of_le u hk, indexAddr, hui]
    _ = memRead (writeBytes s.mem (indexAddr s 0) (readVs s x)) (indexAddr s k.val) := hbytes k.val hk
    _ = s.v.get k := memRead_store s hk

/-! ### New values of I -/

/-- The glyph address does not wrap: it is at most 0x54B (R140). -/
theorem glyphAddr_toNat (b : Byte) : (glyphAddr b).toNat = 0x050 + 5 * b.toNat := by
  rw [glyphAddr]
  bv_omega

/-- Settles O36: `nnn` is widened, and the glyph address is too small to wrap. -/
theorem indexLoads : Obligations.IndexLoads :=
  ⟨fun _ h => decode_of_inRow (i := .ldI 0) h, fun _ h => decode_of_inRow (i := .ldF 0) h, fun s =>
    ⟨fun nnn => ⟨setI s (addrOperand nnn), rfl, addrOperand_toNat nnn, rfl⟩,
      fun x => ⟨setI s (glyphAddr (readV s x)), rfl, glyphAddr_toNat (readV s x), rfl⟩⟩⟩

/-- Settles O37: the sum of I and the widened V[x] is taken in 16 bits. -/
theorem addIndexWraps : Obligations.AddIndexWraps := by
  refine ⟨fun _ h => decode_of_inRow (i := .addI 0) h, fun s x =>
    ⟨setI s (s.i + (readV s x).setWidth 16), rfl, ?_, rfl⟩⟩
  have hwide : ((readV s x).setWidth 16).toNat = (s.v.get x).toNat :=
    BitVec.toNat_setWidth_of_le (by decide)
  rw [setI_i, BitVec.toNat_add, hwide]

/-! ### LD B,Vx -/

/-- LD B,Vx answers when its three bytes end at or below 0xFFF (R141). -/
theorem exec_ldB_next {s : State} {x : RegIdx} (h : s.i.toNat + 2 ≤ 0xFFF) :
    exec (.ldB x) s = .next (setMem s (writeBytes s.mem (indexAddr s 0) (bcdDigits (readV s x)))) :=
  guardRange_next.2 ⟨(inRange_iff _ _).2 (by simp only [indexAddr]; omega), rfl⟩

/-- The k-th digit, a number below 256, is what the byte stored at I + k says (R141). -/
theorem memRead_bcd_toNat (s : State) {b : Byte} {n : Nat} (k : Fin 3)
    (hd : (bcdDigits b)[k.val]'k.isLt = BitVec.ofNat 8 n) (hn : n < 256) :
    (memRead (writeBytes s.mem (indexAddr s 0) (bcdDigits b)) (indexAddr s k.val)).toNat = n := by
  have hstored : memRead (writeBytes s.mem (indexAddr s 0) (bcdDigits b)) (indexAddr s k.val) = BitVec.ofNat 8 n :=
    (memRead_writeBytes_in (bcdDigits b) s.mem (indexAddr s 0) k.val k.isLt).trans hd
  rw [hstored, BitVec.toNat_ofNat, Nat.mod_eq_of_lt hn]

/-- Settles O38, digit by digit; the rest of memory is outside the store's range. -/
theorem bcdStoresThreeDigits : Obligations.BcdStoresThreeDigits := by
  refine ⟨fun _ h => decode_of_inRow (i := .ldB 0) h, fun s x h => ?_, fun s x h =>
    exec_of_ownError (.inr (.inr (.inr (.inl ⟨x, rfl, h, rfl⟩))))⟩
  have hbyte := (s.v.get x).isLt
  exact ⟨_, exec_ldB_next h, memRead_bcd_toNat s 0 rfl (by omega), memRead_bcd_toNat s 1 rfl (by omega),
    memRead_bcd_toNat s 2 rfl (by omega), fun _ => memRead_writeBytes_index_out s rfl, rfl⟩

end Sys2Proof.Machine

/-!
PROOFS. The statements on keys and timers (spec/45_keys_timers.md): the entry into the key wait, the key skips, and the
timer moves.
-/

namespace Sys2Proof.Machine

/-- A running step whose instruction answers ends with that answer, closed by the tick (R85, R92). -/
theorem Runs.step_next {s u : State} {i : Instr} (hi : Runs s i) (he : exec i (atExec s) = .next u) :
    step s = .next (closeStep u) := by
  rw [step_of_runs hi, he, finishStep]

/-! ### The entry into the key wait -/

/-- Settles O14: the instruction assigns the driver's state and nothing else, and the step ticks after it. -/
theorem ldVxKEntersTheWait : Obligations.LdVxKEntersTheWait :=
  ⟨fun _ h => decode_of_inRow (i := .ldVxK 0) h, fun s x => ⟨setDrv s (.waitingForKey x), rfl, rfl, rfl⟩,
    fun s x hi => ⟨closeStep (setDrv (atExec s) (.waitingForKey x)), hi.step_next rfl, rfl, hi.pc_add_two, rfl,
      tickTimer_toNat s.dt, tickTimer_toNat s.st⟩⟩

/-! ### The key skips -/

/-- A value up to 15 is the number of the key it asks for (R145). -/
theorem keyPressed_of_toNat_eq (s : State) {b : Byte} {k : RegIdx} (h : b.toNat = k.val) :
    keyPressed s b = s.key.get k := by
  have hlt : b.toNat < 16 := h ▸ k.isLt
  rw [keyPressed, dif_pos hlt]
  exact congrArg s.key.get (Fin.ext h)

/-- A value above 15 is no key's number, and is never pressed (D7). -/
theorem keyPressed_of_ge (s : State) {b : Byte} (h : 16 ≤ b.toNat) : keyPressed s b = false :=
  dif_neg (Nat.not_lt.2 h)

/-- Settles O43: a skip tests the flag of the key that V[x] numbers, or `false` when no key has that number. -/
theorem keySkips : Obligations.KeySkips := by
  refine ⟨fun _ h => decode_of_inRow (i := .skp 0) h, fun _ h => decode_of_inRow (i := .sknp 0) h,
    fun s x => ⟨fun k hk => ?_, fun hout => ?_⟩⟩
  · have hkey : keyPressed s (readV s x) = s.key.get k := keyPressed_of_toNat_eq s hk
    simp only [exec, execSkp, execSknp, hkey]
    exact ⟨congrArg _ (skipIf_eq s Iff.rfl), congrArg _ (skipIf_eq_of_not s (by simp))⟩
  · have hnone : keyPressed s (readV s x) = false := keyPressed_of_ge s hout
    simp only [exec, execSkp, execSknp, hnone]
    exact ⟨rfl, rfl⟩

/-! ### The timer moves -/

/-- Settles O44: each form writes one register or one timer, and the tick comes after it. -/
theorem timerMoves : Obligations.TimerMoves := by
  refine ⟨fun _ h => decode_of_inRow (i := .ldVxDT 0) h, fun _ h => decode_of_inRow (i := .ldDTVx 0) h,
    fun _ h => decode_of_inRow (i := .ldSTVx 0) h, fun s x => ⟨?_, ?_, ?_⟩,
    fun s x => ⟨fun hi => ?_, fun hi => ?_, fun hi => ?_⟩⟩
  · exact ⟨writeV s x s.dt, rfl, writeV_get_same s x s.dt, fun _ => writeV_get_ne s s.dt, rfl⟩
  · exact ⟨setDT s (readV s x), rfl, rfl, rfl⟩
  · exact ⟨setST s (readV s x), rfl, rfl, rfl⟩
  · exact ⟨_, hi.step_next rfl, writeV_get_same (atExec s) x s.dt, tickTimer_toNat s.dt⟩
  · exact ⟨_, hi.step_next rfl, tickTimer_toNat (s.v.get x)⟩
  · exact ⟨_, hi.step_next rfl, tickTimer_toNat (s.v.get x)⟩

end Sys2Proof.Machine

/-!
PROOFS. The statement on the error rules (spec/60_exceptions.md): exactly which steps fail, and with what error.
-/

namespace Sys2Proof.Machine

/-- The fetch at 0xFFF lacks its second byte only, so its payload is 0x1000; above that it is PC itself (R56, D13). -/
theorem rangeFault_of_fetch_out {p : Nat} (h : 0xFFF ≤ p) :
    rangeFault p = .outOfBounds (if p = 0xFFF then 0x1000 else p) := by
  have hmax : max p 0x1000 = if p = 0xFFF then 0x1000 else p := by split <;> omega
  exact congrArg Fault.outOfBounds hmax

/-- The decoder rejects a word with that word as the error's payload (R153). -/
theorem exists_unknownOpcode_fault_iff {w : Word} {f : Fault} :
    (∃ u, decode w = .unknownOpcode u ∧ f = .unknownOpcode u) ↔
      decode w = .unknownOpcode w ∧ f = .unknownOpcode w := by
  refine ⟨?_, fun h => ⟨w, h⟩⟩
  rintro ⟨u, hu, hf⟩
  obtain ⟨rfl, -⟩ := decode_eq_unknownOpcode_iff.1 hu
  exact ⟨hu, hf⟩

/-- Settles O8: `step_fault_iff`, with the payloads of the fetch and of the decoder written out. -/
theorem stepFaultsExactly : Obligations.StepFaultsExactly := by
  intro s f
  have hfetch : (0xFFF ≤ s.pc.toNat ∧ f = rangeFault s.pc.toNat) ↔
      (0xFFF ≤ s.pc.toNat ∧ f = .outOfBounds (if s.pc.toNat = 0xFFF then 0x1000 else s.pc.toNat)) :=
    and_congr_right fun hpc => by rw [rangeFault_of_fetch_out hpc]
  rw [step_fault_iff, hfetch, exists_unknownOpcode_fault_iff]

end Sys2Proof.Machine

/-!
PROOFS. The statements on reset, load and the hazards between steps (spec/70_reset_and_hazards.md): the delay timer over a
run, the key read, the load of a ROM, and booting.
-/

namespace Sys2Proof.Machine

/-! ### The delay timer over a run -/

/-- Along steps of which the first runs LD DT,Vx and no later one writes DT, DT goes down by one a step, whatever the host
does in between that leaves DT alone (R185). -/
theorem dt_countdown {f : Nat → State} {x : RegIdx} {m : Nat} (hset : Runs (f 0) (.ldDTVx x))
    (hstep : ∀ k, k ≤ m → ∃ t, step (f k) = .next t ∧ (f (k + 1)).dt = t.dt)
    (hlater : ∀ k, 1 ≤ k → k ≤ m → ∀ z, ¬Runs (f k) (.ldDTVx z)) {k : Nat} (h1 : 1 ≤ k) (hm : k ≤ m + 1) :
    (f k).dt.toNat = ((f 0).v.get x).toNat - k := by
  induction k, h1 using Nat.le_induction with
  | base =>
    obtain ⟨t, ht, hdt⟩ := hstep 0 (Nat.zero_le m)
    obtain ⟨setting, -⟩ := timersTickEveryAnsweringStep _ _ ht
    rw [hdt, setting x hset]
  | succ k h1 ih =>
    have hk : k ≤ m := Nat.le_of_succ_le_succ hm
    obtain ⟨t, ht, hdt⟩ := hstep k hk
    obtain ⟨-, ticking, -⟩ := timersTickEveryAnsweringStep _ _ ht
    rw [hdt, ticking (hlater k h1 hk), ih (Nat.le_succ_of_le hk), Nat.sub_sub]

/-- Settles O12, by the countdown: LD Vz,DT reads DT before its own step ticks it, and the host writes neither DT nor V. -/
theorem delayTimerCountsStepsDown : Obligations.DelayTimerCountsStepsDown := by
  intro f x m hset hrun hlater
  have hstep : ∀ k, k ≤ m → ∃ t, step (f k) = .next t ∧ (f (k + 1)).dt = t.dt ∧ (f (k + 1)).v = t.v := by
    intro k hk
    obtain ⟨t, ht, hhost⟩ := hrun k hk
    exact ⟨t, ht, by rw [hhost], by rw [hhost]⟩
  have hdt : ∀ k, 1 ≤ k → k ≤ m + 1 → (f k).dt.toNat = ((f 0).v.get x).toNat - k := fun k =>
    dt_countdown hset (fun j hj => (hstep j hj).imp fun _ ⟨ht, hdt, _⟩ => ⟨ht, hdt⟩) hlater
  refine ⟨hdt, fun k h1 hk z hi => ?_⟩
  obtain ⟨t, ht, -, hv⟩ := hstep k hk
  obtain ⟨-, -, -, -, moves⟩ := timerMoves
  obtain ⟨u, hu, hread, -⟩ := (moves (f k) z).1 hi
  obtain rfl : t = u := by simpa [ht] using hu
  rw [hv, hread, hdt k h1 (Nat.le_succ_of_le hk)]

/-! ### The key read -/

/-- Settles O17: the first step enters the wait and leaves the keys, so the second finds `k` the lowest pressed key. -/
theorem keyReadTakesTwoSteps : Obligations.KeyReadTakesTwoSteps := by
  intro s x k hi hk hlow
  have hkey : lowestKey s = some k := lowestKey_eq_some_iff.2 ⟨hk, hlow⟩
  refine ⟨closeStep (setDrv (atExec s) (.waitingForKey x)), _, hi.step_next rfl, rfl,
    step_of_wait_pressed rfl hkey, ?_, rfl, hi.pc_add_two⟩
  simp

/-! ### Loading a ROM -/

/-- A ROM of at most 3584 bytes is written to 0x200 on (R175, R176). -/
theorem transact_load_done (s : State) {bytes : List Byte} (h : bytes.length ≤ 3584) :
    transact (.load bytes) s = (setMem s (writeBytes s.mem progStart bytes), .done) := by
  have hfits : ¬bytes.length > romMax := Nat.not_lt.2 h
  simp only [transact, load, if_neg hfits]

/-- A longer ROM is rejected with its length (R175, D31). -/
theorem transact_load_tooLarge (s : State) {bytes : List Byte} (h : 3584 < bytes.length) :
    transact (.load bytes) s = (s, .loadErr (.romTooLarge bytes.length)) := by
  have hlong : bytes.length > romMax := h
  simp only [transact, load, if_pos hlong]

/-- Settles O54, by what a write of bytes puts inside its range and leaves outside it. -/
theorem loadCopiesTheRom : Obligations.LoadCopiesTheRom := by
  refine ⟨fun s bytes h => ⟨_, transact_load_done s h, fun k hk => ?_, fun a ha => ?_, rfl⟩,
    fun s _ => transact_load_tooLarge s⟩
  · rw [List.getD_eq_getElem _ _ hk]
    exact memRead_writeBytes_in bytes s.mem progStart k hk
  · exact memRead_writeBytes_out bytes s.mem progStart a ha

/-! ### Booting -/

/-- The word at the start of written bytes is the one that the first two of them spell (R52). -/
theorem wordAt_writeBytes (m : Memory) (a : Nat) (hi lo : Byte) (rest : List Byte) :
    wordAt (writeBytes m a (hi :: lo :: rest)) a = wordOfBytes hi lo :=
  congrArg₂ wordOfBytes (memRead_writeBytes_in (hi :: lo :: rest) m a 0 (by simp))
    (memRead_writeBytes_in (hi :: lo :: rest) m a 1 (by simp))

/-- Settles O55: reset sets PC to 0x200 and the driver running, and the load puts the ROM's first word there. -/
theorem bootRunsTheRomsFirstWord : Obligations.BootRunsTheRomsFirstWord := by
  intro s hi lo rest i hlen hdec
  have hfits : (hi :: lo :: rest).length ≤ 3584 := by
    simp only [List.length_cons]
    omega
  have hfetch : wordAt (writeBytes (hostReset s).mem progStart (hi :: lo :: rest)) progStart = wordOfBytes hi lo :=
    wordAt_writeBytes _ progStart hi lo rest
  exact ⟨_, transact_load_done (hostReset s) hfits, rfl, rfl, by simp, (congrArg decode hfetch).trans hdec⟩

end Sys2Proof.Machine
